-- ==== Sys2Proof/Word.lean ====
section
/-! DEFINITION. The widths of 00_scope.md R6: registers are 32 bits wide, a character code and an entropy byte are
8 bits wide, a rank is 5 bits wide. Every value is unsigned (R8). -/

namespace Sys2Proof

/-- A register of the window, and a command word (R6, R100). -/
abbrev Word := BitVec 32

/-- A character code or a byte of entropy (R13, R14). -/
abbrev Byte := BitVec 8

/-- The numeric value a symbol stands for (R15 "Rank"). -/
abbrev Rank := BitVec 5

end Sys2Proof
end

