-- ==== Sys2Proof/Syntax.lean ====
section
/-! DEFINITION. The commands of the block, one constructor for each row of the opcode table (30_encoding.md R102). -/

namespace Sys2Proof

/-- A command as its word selects it (30_encoding.md R101). ARG is the only immediate (R103): ENCSYM reads it as a rank
number, DECSYM as a character code. -/
inductive Instr
  | generate
  | random
  | parse
  | isvalid
  | getts
  | getent
  | decode
  | encsym (rank : Nat)
  | decsym (char : Byte)
deriving DecidableEq, Repr

end Sys2Proof
end

