-- ==== Sys2Proof/WellFormed.lean ====
section
/-! DEFINITION. Which commands have a command word. -/

namespace Sys2Proof

/-- The command's fields fit the fields of format C: ARG is 8 bits (30_encoding.md R100), so `encsym r` needs `r` in
0..255 (R105). A rank of 32..255 is well formed: it is an operand error, not an illegal word (R103). A character code
is 8 bits by its type, and no other command has a field. -/
def Instr.wellFormed : Instr → Bool
  | .generate => true
  | .random => true
  | .parse => true
  | .isvalid => true
  | .getts => true
  | .getent => true
  | .decode => true
  | .encsym rank => decide (rank < 256)
  | .decsym _ => true

end Sys2Proof
end

