-- ==== Sys2Proof/Decode.lean ====
section
/-! DEFINITION. The command word: format C (30_encoding.md R100), the decoder `Exec` begins with (R101), the encoder,
and the opcode table as masks and patterns (R102, opcode_table.json). -/

namespace Sys2Proof

/-- OP, bits 3:0 (R100). -/
def opField (w : Word) : BitVec 4 := w.extractLsb' 0 4

/-- RSV0, bits 7:4, reserved, must be 0 (R100). -/
def rsv0Field (w : Word) : BitVec 4 := w.extractLsb' 4 4

/-- ARG, bits 15:8 (R100). -/
def argField (w : Word) : Byte := w.extractLsb' 8 8

/-- RSV1, bits 31:16, reserved, must be 0 (R100). -/
def rsv1Field (w : Word) : BitVec 16 := w.extractLsb' 16 16

/-- The three kinds of illegal word (R104). -/
inductive Reject
  | reservedBits
  | unassignedOpcode
  | argNotZero
deriving DecidableEq, Repr

/-- What the decoder reads from a word: one command, or a rejection by name (R101: "every 32-bit word either selects
one command or raises ILLEGAL_COMMAND"). -/
inductive Decoded
  | instr (i : Instr)
  | rejected (r : Reject)
deriving DecidableEq, Repr

/-- A command that takes no immediate requires ARG to be 0 (R100, R104). -/
def withoutArg (w : Word) (i : Instr) : Decoded :=
  if argField w = 0 then .instr i else .rejected .argNotZero

/-- The command an assigned opcode selects (R101, R102). -/
def decodeOp (w : Word) : Decoded :=
  match (opField w).toNat with
  | 0x1 => withoutArg w .generate
  | 0x2 => withoutArg w .random
  | 0x3 => withoutArg w .parse
  | 0x4 => withoutArg w .isvalid
  | 0x5 => withoutArg w .getts
  | 0x6 => withoutArg w .getent
  | 0x7 => withoutArg w .decode
  | 0x8 => .instr (.encsym (argField w).toNat)
  | 0x9 => .instr (.decsym (argField w))
  | _ => .rejected .unassignedOpcode

/-- The decoder, total on every word (R101). -/
def decode (w : Word) : Decoded :=
  if rsv0Field w ≠ 0 ∨ rsv1Field w ≠ 0 then .rejected .reservedBits else decodeOp w

/-- A word of format C, its fields from the top down: RSV1, ARG, RSV0, OP (R100). -/
def formatC (op : BitVec 4) (arg : Byte) : Word := (0#16 ++ arg) ++ (0#4 ++ op)

/-- The command word of a well-formed command (R102). -/
def encode : Instr → Word
  | .generate => formatC 0x1 0
  | .random => formatC 0x2 0
  | .parse => formatC 0x3 0
  | .isvalid => formatC 0x4 0
  | .getts => formatC 0x5 0
  | .getent => formatC 0x6 0
  | .decode => formatC 0x7 0
  | .encsym rank => formatC 0x8 (BitVec.ofNat 8 rank)
  | .decsym char => formatC 0x9 char

/-- A row of the opcode table: the bits under `mask` must be those of `pattern`. -/
structure OpcodeRow where
  mnemonic : String
  pattern : Word
  mask : Word
deriving DecidableEq, Repr

/-- The word has the row's fixed bits. -/
def OpcodeRow.fits (row : OpcodeRow) (w : Word) : Bool := w &&& row.mask == row.pattern

/-- The nine rows of opcode_table.json, its "match" and "mask". -/
def opcodeRows : List OpcodeRow :=
  [ ⟨"GENERATE", 0x00000001, 0xFFFFFFFF⟩,
    ⟨"RANDOM", 0x00000002, 0xFFFFFFFF⟩,
    ⟨"PARSE", 0x00000003, 0xFFFFFFFF⟩,
    ⟨"ISVALID", 0x00000004, 0xFFFFFFFF⟩,
    ⟨"GETTS", 0x00000005, 0xFFFFFFFF⟩,
    ⟨"GETENT", 0x00000006, 0xFFFFFFFF⟩,
    ⟨"DECODE", 0x00000007, 0xFFFFFFFF⟩,
    ⟨"ENCSYM", 0x00000008, 0xFFFF00FF⟩,
    ⟨"DECSYM", 0x00000009, 0xFFFF00FF⟩ ]

/-- The table's name of a command (R102). -/
def Instr.mnemonic : Instr → String
  | .generate => "GENERATE"
  | .random => "RANDOM"
  | .parse => "PARSE"
  | .isvalid => "ISVALID"
  | .getts => "GETTS"
  | .getent => "GETENT"
  | .decode => "DECODE"
  | .encsym _ => "ENCSYM"
  | .decsym _ => "DECSYM"

/-- The command the decoder reads from a table row's `nbits` bits `w`. A command is one 32-bit register write, so no
byte order enters (20_memory.md R76); the bits above `nbits` are 0. -/
def decodeTableWord (nbits w : Nat) : Option Instr :=
  match decode (BitVec.ofNat 32 (w % 2 ^ nbits)) with
  | .instr i => some i
  | .rejected _ => none

end Sys2Proof
end

