-- ==== Sys2Proof/Config.lean ====
section
/-! DEFINITION. What the spec leaves to the platform or to the environment: the base address of the window
(00_scope.md R7) and the answers of the two collaborators (43_facade.md R203). Constants with no body: nothing can be
proved of their values. -/

namespace Sys2Proof

/-- What the entropy source answers to `draw ENTROPY` (43_facade.md R203): `Fail`, or `Bytes(n, b)` with `n` the
length of the list `b`. -/
inductive EntropyAnswer
  | fail
  | bytes (b : List Byte)
deriving DecidableEq, Repr, Inhabited

/-- `WINDOW_BASE`, the host bus address of offset 0 of the window (00_scope.md R7, 20_memory.md R70). -/
opaque Config.windowBase : Nat

/-- FREE VALUE. The clock's answer to the draw with this number, where the environment has supplied none in `draws`
(43_facade.md R203: "any 64-bit value"; log 2). -/
opaque Config.freeClock : Nat → BitVec 64

/-- FREE VALUE. The entropy source's answer to the draw with this number, where the environment has supplied none in
`draws` (43_facade.md R203; log 2). -/
opaque Config.freeEntropy : Nat → EntropyAnswer

end Sys2Proof
end

