-- ==== Sys2Proof/Machine/State.lean ====
section
/-! DEFINITION. The machine's state as plain data: the register file of 10_state.md R33 and R48, which is all the block
holds (R47), and beside it what the agents outside the block are about to do (log 1, log 2, log 5). -/

namespace Sys2Proof.Machine

/-- The 29 named registers of 10_state.md R33. -/
inductive Reg
  | cmd
  | status
  | tsInLo
  | tsInHi
  | entCtrl
  | entIn (k : Fin 3)
  | strCtrl
  | strIn (k : Fin 7)
  | tsOutLo
  | tsOutHi
  | entOut (k : Fin 3)
  | strOut (k : Fin 7)
  | symOut
deriving DecidableEq, Repr, Fintype

/-- The register file (10_state.md R48): 13 names, of which ENT_IN, STR_IN, ENT_OUT and STR_OUT are numbered groups
of 3, 7, 3 and 7 registers. -/
structure RegFile where
  cmd : Word
  status : Word
  tsInLo : Word
  tsInHi : Word
  entCtrl : Word
  entIn : Vector Word 3
  strCtrl : Word
  strIn : Vector Word 7
  tsOutLo : Word
  tsOutHi : Word
  entOut : Vector Word 3
  strOut : Vector Word 7
  symOut : Word
deriving DecidableEq, Repr

/-- The reset value of every register is 0x00000000 (10_state.md R49, 70_reset_and_hazards.md R280). -/
def RegFile.reset : RegFile where
  cmd := 0
  status := 0
  tsInLo := 0
  tsInHi := 0
  entCtrl := 0
  entIn := Vector.replicate 3 0
  strCtrl := 0
  strIn := Vector.replicate 7 0
  tsOutLo := 0
  tsOutHi := 0
  entOut := Vector.replicate 3 0
  strOut := Vector.replicate 7 0
  symOut := 0

/-- The answers of the two collaborators to one RANDOM, clock first (43_facade.md R203). -/
structure Draw where
  clock : BitVec 64
  entropy : EntropyAnswer
deriving DecidableEq, Repr

/-- What the agents outside the block do next. `read` and `write` are host accesses at an offset with a width in bits
(20_memory.md R71, R72). `copy` and `branch` are the two forms of the host's notation in which what the host does next
depends on a value it reads (30_encoding.md R105 `if`, R106 `cp`): a branch is followed by `nThen` actions of its first
group and `nElse` of its second. `halt` ends the host's program (R105). `assertReset` is the reset input
(70_reset_and_hazards.md R280). -/
inductive HostAction
  | read (off width : Nat)
  | write (off width : Nat) (v : Word)
  | copy (dst src : Reg)
  | branch (r : Reg) (mask value : Word) (nThen nElse : Nat)
  | halt
  | assertReset
deriving DecidableEq, Repr

/-- The state. `regs` is the block's whole state (10_state.md R47). The other fields are the model's own: what the host
will do next, oldest first (R46 "any sequencing of commands is host state"; log 1), the values its reads have returned,
oldest first (70_reset_and_hazards.md R285; log 5), the answers the collaborators have ready, oldest first, and the
number of draws taken (log 2). -/
structure State where
  regs : RegFile
  host : List HostAction
  reads : List Word
  draws : List Draw
  drawCount : Nat
deriving DecidableEq, Repr

/-- The machine right after reset: every register 0 (10_state.md R49). The model's own fields start empty (log 9). -/
def State.reset : State where
  regs := RegFile.reset
  host := []
  reads := []
  draws := []
  drawCount := 0

/-- Why the machine stops. -/
inductive Fault
  /-- Raised by a host access that the window does not admit, with the access's offset and its width in bits
  (20_memory.md R72, 60_exceptions.md R256). Safe: the block is unchanged and the model says nothing further, where a
  host may go on after its bus error (log 4). -/
  | hostAccessFault (off width : Nat)
deriving DecidableEq, Repr

/-- Why an instruction has no meaning. -/
inductive Refusal
  /-- Raised by an arm of `exec` for a command that has no meaning yet. Safe: nothing is said of it. No arm raises it:
  every command of the table has its meaning. -/
  | notModelled (mnemonic : String)
deriving DecidableEq, Repr

end Sys2Proof.Machine
end

