-- ==== Sys2Proof/Machine/Flags.lean ====
section
/-! DEFINITION. STATUS and its two fields, ERR and VALID (10_state.md R45), the only condition bits the block has
(R46), and the error codes of 60_exceptions.md R250. -/

namespace Sys2Proof.Machine

/-- The kinds of error a command raises (60_exceptions.md R250). -/
inductive ErrorKind
  | outOfRange
  | invalidLength
  | missingInput
  | illegalSymbol
  | sourceFailure
  | illegalCommand
deriving DecidableEq, Repr

/-- The code a kind has in STATUS.ERR (60_exceptions.md R250). Code 0 is NONE, and 7..15 are never written. -/
def ErrorKind.code : ErrorKind → BitVec 4
  | .outOfRange => 1
  | .invalidLength => 2
  | .missingInput => 3
  | .illegalSymbol => 4
  | .sourceFailure => 5
  | .illegalCommand => 6

/-- STATUS.ERR, bits 3:0 (10_state.md R45). -/
def statusErr (w : Word) : BitVec 4 := w.extractLsb' 0 4

/-- STATUS.VALID, bit 8 (10_state.md R45). -/
def statusValid (w : Word) : Bool := w.getLsbD 8

/-- A STATUS word with ERR written and every other bit kept. -/
def statusWithErr (w : Word) (code : BitVec 4) : Word := w.extractLsb' 4 28 ++ code

/-- A STATUS word with VALID written and every other bit kept. -/
def statusWithValid (w : Word) (v : Bool) : Word :=
  (w.extractLsb' 9 23 ++ BitVec.ofBool v) ++ w.extractLsb' 0 8

end Sys2Proof.Machine
end

