-- ==== Sys2Proof/Machine/Ops.lean ====
section
/-! DEFINITION. The named operations: the register primitives `x[NAME]` and `x[NAME] <- v` (00_scope.md R10), the
register window's address map and access rules (10_state.md R33, R34; 20_memory.md R70 to R72), `raise` and success
(00_scope.md R11), and a draw (R12).

`raise` is the block's one way to report an error and stands where another machine takes an exception: it saves no
return state, changes no mode and redirects no control (60_exceptions.md R254), and there is no return from it
(R255). -/

namespace Sys2Proof.Machine

/-! ### Registers by name -/

/-- `x[NAME]` (00_scope.md R10). -/
def RegFile.get (f : RegFile) : Reg → Word
  | .cmd => f.cmd
  | .status => f.status
  | .tsInLo => f.tsInLo
  | .tsInHi => f.tsInHi
  | .entCtrl => f.entCtrl
  | .entIn k => f.entIn[k]
  | .strCtrl => f.strCtrl
  | .strIn k => f.strIn[k]
  | .tsOutLo => f.tsOutLo
  | .tsOutHi => f.tsOutHi
  | .entOut k => f.entOut[k]
  | .strOut k => f.strOut[k]
  | .symOut => f.symOut

/-- `x[NAME] <- v` (00_scope.md R10). -/
def RegFile.set (f : RegFile) (r : Reg) (v : Word) : RegFile :=
  match r with
  | .cmd => { f with cmd := v }
  | .status => { f with status := v }
  | .tsInLo => { f with tsInLo := v }
  | .tsInHi => { f with tsInHi := v }
  | .entCtrl => { f with entCtrl := v }
  | .entIn k => { f with entIn := f.entIn.set k v }
  | .strCtrl => { f with strCtrl := v }
  | .strIn k => { f with strIn := f.strIn.set k v }
  | .tsOutLo => { f with tsOutLo := v }
  | .tsOutHi => { f with tsOutHi := v }
  | .entOut k => { f with entOut := f.entOut.set k v }
  | .strOut k => { f with strOut := f.strOut.set k v }
  | .symOut => { f with symOut := v }

/-- `x[NAME]` in a state. -/
def State.get (s : State) (r : Reg) : Word := s.regs.get r

/-- `x[NAME] <- v` in a state. -/
def State.set (s : State) (r : Reg) (v : Word) : State := { s with regs := s.regs.set r v }

/-! ### The register window -/

/-- The byte offset of a register (10_state.md R33). -/
def Reg.offset : Reg → Nat
  | .cmd => 0x00
  | .status => 0x04
  | .tsInLo => 0x08
  | .tsInHi => 0x0C
  | .entCtrl => 0x10
  | .entIn k => 0x14 + 4 * k.val
  | .strCtrl => 0x20
  | .strIn k => 0x24 + 4 * k.val
  | .tsOutLo => 0x40
  | .tsOutHi => 0x44
  | .entOut k => 0x48 + 4 * k.val
  | .strOut k => 0x54 + 4 * k.val
  | .symOut => 0x70

/-- RW: the host can write the register. The others are RO (10_state.md R33). -/
def Reg.writable : Reg → Bool
  | .cmd => true
  | .status => false
  | .tsInLo => true
  | .tsInHi => true
  | .entCtrl => true
  | .entIn _ => true
  | .strCtrl => true
  | .strIn _ => true
  | .tsOutLo => false
  | .tsOutHi => false
  | .entOut _ => false
  | .strOut _ => false
  | .symOut => false

/-- The bits of a register that are neither reserved nor hardwired to 0 (10_state.md R36 to R45). -/
def Reg.mask : Reg → Word
  | .cmd => 0xFFFFFFFF
  | .status => 0x0000010F
  | .tsInLo => 0xFFFFFFFF
  | .tsInHi => 0xFFFFFFFF
  | .entCtrl => 0x8000FFFF
  | .entIn k => if k = 2 then 0xFFFF0000 else 0xFFFFFFFF
  | .strCtrl => 0x8000FFFF
  | .strIn k => if k = 6 then 0xFFFF0000 else 0xFFFFFFFF
  | .tsOutLo => 0xFFFFFFFF
  | .tsOutHi => 0x0000FFFF
  | .entOut k => if k = 2 then 0xFFFF0000 else 0xFFFFFFFF
  | .strOut k => if k = 6 then 0xFFFF0000 else 0xFFFFFFFF
  | .symOut => 0x000000FF

/-- The 29 named registers, in the order of their offsets (10_state.md R33). -/
def Reg.all : List Reg :=
  [.cmd, .status, .tsInLo, .tsInHi, .entCtrl, .entIn 0, .entIn 1, .entIn 2, .strCtrl,
    .strIn 0, .strIn 1, .strIn 2, .strIn 3, .strIn 4, .strIn 5, .strIn 6] ++
  [.tsOutLo, .tsOutHi, .entOut 0, .entOut 1, .entOut 2,
    .strOut 0, .strOut 1, .strOut 2, .strOut 3, .strOut 4, .strOut 5, .strOut 6, .symOut]

/-- The register at an offset, if one is named there. The admitted offsets without one are the reserved 0x74, 0x78
and 0x7C (10_state.md R33). -/
def regAt (off : Nat) : Option Reg := Reg.all.find? fun r => r.offset == off

/-- The window admits only aligned 32-bit accesses at offsets 0x00..0x7F (20_memory.md R72). -/
def admitted (off width : Nat) : Bool := width == 32 && off % 4 == 0 && decide (off < 0x80)

/-- The value `RegRead(off)` returns for an admitted offset: reserved bits and reserved offsets read 0
(20_memory.md R71, 10_state.md R34). -/
def regReadValue (s : State) (off : Nat) : Word :=
  match regAt off with
  | some r => s.get r &&& r.mask
  | none => 0

/-- The store of `RegWrite(off, v)` for an admitted offset: only an RW register is written, its reserved bits stay 0,
and RO registers and reserved offsets ignore the write (20_memory.md R71, 10_state.md R34). -/
def regStore (s : State) (off : Nat) (v : Word) : State :=
  match regAt off with
  | some r => if r.writable then s.set r (v &&& r.mask) else s
  | none => s

/-- The host bus address of an offset (20_memory.md R70). -/
def hostAddress (off : Nat) : Nat := Config.windowBase + off

/-- The offset a host bus address reaches the block at. An address below the window reaches no offset of the block
(20_memory.md R70, R77; log 6). -/
def offsetOfHostAddress (addr : Nat) : Option Nat :=
  if Config.windowBase ≤ addr then some (addr - Config.windowBase) else none

/-! ### STATUS -/

/-- `x[STATUS.ERR]`. -/
def State.err (s : State) : BitVec 4 := statusErr (s.get .status)

/-- `x[STATUS.VALID]`. -/
def State.valid (s : State) : Bool := statusValid (s.get .status)

/-- `x[STATUS.ERR] <- code`, which keeps VALID (10_state.md R45). -/
def State.setErr (s : State) (code : BitVec 4) : State := s.set .status (statusWithErr (s.get .status) code)

/-- `x[STATUS.VALID] <- v`. -/
def State.setValid (s : State) (v : Bool) : State := s.set .status (statusWithValid (s.get .status) v)

/-- `raise E` (00_scope.md R11): the command ends, STATUS.ERR takes the code of `E`, and no other register is
written. -/
def raise (e : ErrorKind) (s : State) : State := s.setErr e.code

/-- `x[STATUS.ERR] <- 0` at the end of a command: it succeeded (00_scope.md R11). -/
def succeed (s : State) : State := s.setErr 0

/-! ### Draws -/

/-- The answers the collaborators give to this RANDOM: the oldest pair that is ready, or, where none is, free values
(00_scope.md R12, 43_facade.md R203; log 2). -/
def nextDraw (s : State) : Draw :=
  match s.draws with
  | d :: _ => d
  | [] => { clock := Config.freeClock s.drawCount, entropy := Config.freeEntropy s.drawCount }

/-- The state once this RANDOM has taken its one pair of draws (43_facade.md R203). -/
def takeDraw (s : State) : State := { s with draws := s.draws.tail, drawCount := s.drawCount + 1 }

end Sys2Proof.Machine
end

