-- ==== Sys2Proof/Machine/Alphabet.lean ====
section
/-! DEFINITION. The symbol alphabet: ENC_TABLE and DEC_TABLE (10_state.md R31, R32; 40_alphabet.md R130 to R132), the
functions `sym`, `rank_of` and `fold` (R136), and the two lookup commands ENCSYM (R134) and DECSYM (R135). The tables
are constants: nothing in State holds them. -/

namespace Sys2Proof.Machine

/-- ENC_TABLE (40_alphabet.md R130): the codes of `0123456789ABCDEFGHJKMNPQRSTVWXYZ`. -/
def encTable : List Byte :=
  [0x30, 0x31, 0x32, 0x33, 0x34, 0x35, 0x36, 0x37, 0x38, 0x39] ++
  [0x41, 0x42, 0x43, 0x44, 0x45, 0x46, 0x47, 0x48, 0x4A, 0x4B, 0x4D] ++
  [0x4E, 0x50, 0x51, 0x52, 0x53, 0x54, 0x56, 0x57, 0x58, 0x59, 0x5A]

/-- `sym(r) = ENC_TABLE[r]` (R136). The table has an entry for each of the 32 ranks. -/
def sym (r : Rank) : Byte := encTable.getD r.toNat 0

/-- The code is that of an uppercase letter, 0x41..0x5A (R131). -/
def isUpper (c : Byte) : Bool := decide (0x41 ≤ c.toNat) && decide (c.toNat ≤ 0x5A)

/-- `c` stands for the rank `r`: it is the symbol itself, or the lowercase form of a letter symbol (R131). -/
def standsFor (c : Byte) (r : Rank) : Bool := c == sym r || (isUpper (sym r) && c == sym r + 0x20)

/-- `rank_of(c) = DEC_TABLE[c]` (R131, R136). No alias is applied (R132). -/
def rankOf (c : Byte) : Option Rank := (List.ofFn fun r : Fin 32 => BitVec.ofFin r).find? (standsFor c)

/-- The rank of a character that has one. The commands ask it only of a string that has passed `Validate`
(41_packer.md R155 "never none here"; log 7). -/
def rankOfValid (c : Byte) : Rank := (rankOf c).getD 0

/-- `fold(c)`, defined only for a mapped character (R136; log 7). -/
def fold (c : Byte) : Byte := sym (rankOfValid c)

/-- ENCSYM (R134): the symbol of a rank, or OUT_OF_RANGE for a rank above 31. -/
def execEncsym (rank : Nat) (s : State) : Host.Outcome State Fault Refusal :=
  .next (if 31 < rank then raise .outOfRange s
    else succeed (s.set .symOut ((sym (BitVec.ofNat 5 rank)).setWidth 32)))

/-- DECSYM (R135): the rank of a character code, or ILLEGAL_SYMBOL for an unmapped one. -/
def execDecsym (char : Byte) (s : State) : Host.Outcome State Fault Refusal :=
  .next (match rankOf char with
    | none => raise .illegalSymbol s
    | some r => succeed (s.set .symOut (r.setWidth 32)))

end Sys2Proof.Machine
end

