-- ==== Sys2Proof/Machine/Operands.lean ====
section
/-! DEFINITION. The operand registers as the values commands read from them (10_state.md R35 to R39), the result
registers as the values commands write to them (R40 to R42), and `Validate` (42_validator.md R180). Packing is
big-endian: the lower-numbered byte or character is in the more significant bits (20_memory.md R76). -/

namespace Sys2Proof.Machine

/-- The byte of a register that holds byte or character `i` of a sequence packed four to a register:
bits `31 - 8*(i mod 4) : 24 - 8*(i mod 4)` (10_state.md R39). -/
def byteOf (w : Word) (i : Nat) : Byte := w.extractLsb' (24 - 8 * (i % 4)) 8

/-- Register `k` of a packed sequence: bytes `4k .. 4k+3`, the first in the top bits (10_state.md R37, R39). A position
the sequence does not have is 0. -/
def packedWord (b : List Byte) (k : Nat) : Word :=
  b.getD (4 * k) 0 ++ b.getD (4 * k + 1) 0 ++ b.getD (4 * k + 2) 0 ++ b.getD (4 * k + 3) 0

/-- PRESENT, bit 31 of a descriptor (10_state.md R36, R38). -/
def presentField (w : Word) : Bool := w.getLsbD 31

/-- LEN, bits 15:0 of a descriptor (10_state.md R36, R38). -/
def lenField (w : Word) : BitVec 16 := w.extractLsb' 0 16

/-- `ts64 = x[TS_IN_HI] ++ x[TS_IN_LO]` (10_state.md R35). -/
def State.ts64 (s : State) : BitVec 64 := s.get .tsInHi ++ s.get .tsInLo

/-- `ent_bytes()`, the 10 bytes `e[0..9]` of ENT_IN (10_state.md R37). -/
def State.entBytes (s : State) : List Byte :=
  List.ofFn fun j : Fin 10 => byteOf (s.get (.entIn ⟨j.val / 4, by omega⟩)) j.val

/-- The characters `s[0..25]` of STR_IN (10_state.md R39). -/
def State.strChars (s : State) : List Byte :=
  List.ofFn fun i : Fin 26 => byteOf (s.get (.strIn ⟨i.val / 4, by omega⟩)) i.val

/-- The 26 characters of STR_OUT (10_state.md R42). -/
def State.strOutChars (s : State) : List Byte :=
  List.ofFn fun i : Fin 26 => byteOf (s.get (.strOut ⟨i.val / 4, by omega⟩)) i.val

/-- The 10 bytes of ENT_OUT (10_state.md R41). -/
def State.entOutBytes (s : State) : List Byte :=
  List.ofFn fun j : Fin 10 => byteOf (s.get (.entOut ⟨j.val / 4, by omega⟩)) j.val

/-- The timestamp in TS_OUT (10_state.md R40). -/
def State.tsOut (s : State) : BitVec 48 := (s.get .tsOutHi).extractLsb' 0 16 ++ s.get .tsOutLo

/-- `Validate()` (42_validator.md R180): `none` is OK, otherwise the first check that fails. It writes no register. -/
def validate (s : State) : Option ErrorKind :=
  if presentField (s.get .strCtrl) = false then some .missingInput
  else if lenField (s.get .strCtrl) ≠ 26 then some .invalidLength
  else if s.strChars.any fun c => (rankOf c).isNone then some .illegalSymbol
  else none

/-- Write a 48-bit timestamp to TS_OUT, zero-extended to 64 bits (10_state.md R40). -/
def State.writeTs (s : State) (t : BitVec 48) : State :=
  (s.set .tsOutLo (t.extractLsb' 0 32)).set .tsOutHi ((t.extractLsb' 32 16).setWidth 32)

/-- Write 10 bytes of entropy to ENT_OUT; ENT_OUT2[15:0] is 0 (10_state.md R41). -/
def State.writeEnt (s : State) (e : List Byte) : State :=
  ((s.set (.entOut 0) (packedWord e 0)).set (.entOut 1) (packedWord e 1)).set (.entOut 2) (packedWord e 2)

/-- `pack_str(s)`: write 26 characters to STR_OUT; STR_OUT6[15:0] is 0 (10_state.md R42). -/
def State.writeStr (s : State) (b : List Byte) : State :=
  { s with regs := { s.regs with strOut := Vector.ofFn fun k => packedWord b k.val } }

end Sys2Proof.Machine
end

