-- ==== Sys2Proof/Machine/Packer.lean ====
section
/-! DEFINITION. The bit packer and unpacker (41_packer.md R150 to R155), functions on whole values, and the command
DECODE (R156). -/

namespace Sys2Proof.Machine

/-- `be(b)`: the number a byte sequence stands for, byte 0 the most significant (00_scope.md R14). -/
def be (b : List Byte) : Nat := b.foldl (fun n x => n * 256 + x.toNat) 0

/-- Pack: `V = t ++ be(e)`, for 10 bytes `e` (R150). -/
def packValue (t : BitVec 48) (e : List Byte) : BitVec 128 := t ++ BitVec.ofNat 80 (be e)

/-- Pad: `P = zext_130(V)` (R151). -/
def padValue (v : BitVec 128) : BitVec 130 := v.setWidth 130

/-- Slice: the rank of group `i`, `P[129-5i : 125-5i]`, for `i` in 0..25 (R152). -/
def group (p : BitVec 130) (i : Nat) : Rank := p.extractLsb' (125 - 5 * i) 5

/-- `Encode(t, e)`: the 26-character string (R153). -/
def encodeStr (t : BitVec 48) (e : List Byte) : List Byte :=
  List.ofFn fun i : Fin 26 => sym (group (padValue (packValue t e)) i.val)

/-- Unslice: `P = g[0] ++ g[1] ++ ... ++ g[25]`, of 130 bits (R154). -/
def unslice (g : List Rank) : BitVec 130 := BitVec.ofNat 130 (g.foldl (fun n r => n * 32 + r.toNat) 0)

/-- The 130-bit value of a valid string (R155). -/
def paddedOf (str : List Byte) : BitVec 130 := unslice (str.map rankOfValid)

/-- `V = P[127:0]`, the two bits above dropped (R155). -/
def valueOf (str : List Byte) : BitVec 128 := (paddedOf str).extractLsb' 0 128

/-- The timestamp of a valid string, `V[127:80]` (R155). -/
def timestampOf (str : List Byte) : BitVec 48 := (valueOf str).extractLsb' 80 48

/-- The entropy of a valid string, `e[j] = V[79-8j : 72-8j]` for `j` in 0..9 (R155). -/
def entropyOf (str : List Byte) : List Byte :=
  List.ofFn fun j : Fin 10 => (valueOf str).extractLsb' (72 - 8 * j.val) 8

/-- DECODE (R156): the timestamp and the entropy of the string operand, or the error `Validate` returns. -/
def execDecode (s : State) : Host.Outcome State Fault Refusal :=
  .next (match validate s with
    | some e => raise e s
    | none => succeed ((s.writeTs (timestampOf s.strChars)).writeEnt (entropyOf s.strChars)))

end Sys2Proof.Machine
end

