-- ==== Sys2Proof/Machine/Facade.lean ====
section
/-! DEFINITION. The codec facade's commands GENERATE, RANDOM, PARSE, GETTS and GETENT (43_facade.md R200, R202, R205,
R207, R208). -/

namespace Sys2Proof.Machine

/-- The timestamp is within `[0, 2^48-1]`: its bits 63:48 are 0 (R200, R202). -/
def inRange (ts : BitVec 64) : Bool := ts.extractLsb' 48 16 == 0

/-- GENERATE (R200). The checks are made in this order and the first that fails is reported. -/
def execGenerate (s : State) : Host.Outcome State Fault Refusal :=
  .next (if inRange s.ts64 = false then raise .outOfRange s
    else if presentField (s.get .entCtrl) = false then raise .missingInput s
    else if lenField (s.get .entCtrl) ≠ 10 then raise .invalidLength s
    else succeed (s.writeStr (encodeStr (s.ts64.extractLsb' 0 48) s.entBytes)))

/-- RANDOM's checks and result on the draws it has taken, in the order of R202. -/
def randomResult (d : Draw) (s : State) : State :=
  match d.entropy with
  | .fail => raise .sourceFailure s
  | .bytes b =>
    if inRange d.clock = false then raise .outOfRange s
    else if b.length ≠ 10 then raise .invalidLength s
    else succeed (s.writeStr (encodeStr (d.clock.extractLsb' 0 48) b))

/-- RANDOM (R202): one draw of each kind is taken, whatever comes of it (R203). -/
def execRandom (s : State) : Host.Outcome State Fault Refusal :=
  .next (randomResult (nextDraw s) (takeDraw s))

/-- PARSE (R205): the input with every character folded to its uppercase symbol, or the error `Validate` returns. -/
def execParse (s : State) : Host.Outcome State Fault Refusal :=
  .next (match validate s with
    | some e => raise e s
    | none => succeed (s.writeStr (s.strChars.map fold)))

/-- GETTS (R207): the timestamp of the string operand, or the error `Validate` returns. -/
def execGetts (s : State) : Host.Outcome State Fault Refusal :=
  .next (match validate s with
    | some e => raise e s
    | none => succeed (s.writeTs (timestampOf s.strChars)))

/-- GETENT (R208): the entropy of the string operand, or the error `Validate` returns. -/
def execGetent (s : State) : Host.Outcome State Fault Refusal :=
  .next (match validate s with
    | some e => raise e s
    | none => succeed (s.writeEnt (entropyOf s.strChars)))

end Sys2Proof.Machine
end

