-- ==== Sys2Proof/Machine/Validator.lean ====
section
/-! DEFINITION. The command ISVALID (42_validator.md R182). -/

namespace Sys2Proof.Machine

/-- ISVALID (R182): VALID tells whether `Validate` returned OK, and ERR is always 0. -/
def execIsvalid (s : State) : Host.Outcome State Fault Refusal :=
  .next (succeed (s.setValid (validate s).isNone))

end Sys2Proof.Machine
end

