-- ==== Sys2Proof/Machine/Dispatch.lean ====
section
/-! DEFINITION. One arm for each command (30_encoding.md R101, R102). -/

namespace Sys2Proof.Machine

def exec (i : Instr) (s : State) : Host.Outcome State Fault Refusal :=
  match i with
  | .generate => Sys2Proof.Machine.execGenerate s
  | .random => Sys2Proof.Machine.execRandom s
  | .parse => Sys2Proof.Machine.execParse s
  | .isvalid => Sys2Proof.Machine.execIsvalid s
  | .getts => Sys2Proof.Machine.execGetts s
  | .getent => Sys2Proof.Machine.execGetent s
  | .decode => Sys2Proof.Machine.execDecode s
  | .encsym rank => Sys2Proof.Machine.execEncsym rank s
  | .decsym char => Sys2Proof.Machine.execDecsym char s

end Sys2Proof.Machine
end

