-- ==== Sys2Proof/Machine/HostPort.lean ====
section
/-! DEFINITION. What each action from outside the block does: the host's accesses to the register window
(20_memory.md R71 to R73), the host's reading forms (30_encoding.md R105, R106) and the reset input
(70_reset_and_hazards.md R280). Every function here takes the state with the action already taken off `host`. -/

namespace Sys2Proof.Machine

/-- `Exec(w)` (30_encoding.md R101): the command the word selects, or ILLEGAL_COMMAND (R104). -/
def execWord (w : Word) (s : State) : Host.Outcome State Fault Refusal :=
  match decode w with
  | .instr i => exec i s
  | .rejected _ => .next (raise .illegalCommand s)

/-- `RegRead(off)` (20_memory.md R71): the value goes to the host and no register changes (R73). -/
def hostRead (off width : Nat) (s : State) : Host.Outcome State Fault Refusal :=
  if admitted off width then .next { s with reads := s.reads ++ [regReadValue s off] }
  else .fault (.hostAccessFault off width)

/-- `RegWrite(off, v)` (20_memory.md R71): the value is stored, and at offset 0x00 the word is then executed as a
command within the same step (R73). -/
def hostWrite (off width : Nat) (v : Word) (s : State) : Host.Outcome State Fault Refusal :=
  if admitted off width then
    if off = Reg.cmd.offset then execWord v (regStore s off v) else .next (regStore s off v)
  else .fault (.hostAccessFault off width)

/-- `cp DST, SRC` (30_encoding.md R106): `rd SRC`, after which the host's next access is `wr DST, v` with the value
just read. -/
def hostCopy (dst src : Reg) (s : State) : Host.Outcome State Fault Refusal :=
  .next { s with reads := s.reads ++ [regReadValue s src.offset]
                 host := .write dst.offset 32 (regReadValue s src.offset) :: s.host }

/-- `if (NAME & m) = v` (30_encoding.md R105): one `rd NAME`, after which the host goes on with the first group, the
next `nThen` actions, or with the second, the `nElse` actions after them. -/
def hostBranch (r : Reg) (mask value : Word) (nThen nElse : Nat) (s : State) : Host.Outcome State Fault Refusal :=
  .next { s with reads := s.reads ++ [regReadValue s r.offset]
                 host := if regReadValue s r.offset &&& mask = value
                   then s.host.take nThen ++ s.host.drop (nThen + nElse)
                   else s.host.drop nThen }

/-- The reset input (70_reset_and_hazards.md R280): every register takes its reset value. No command runs and no draw
is taken. -/
def blockReset (s : State) : State := { s with regs := RegFile.reset }

/-- `halt` (30_encoding.md R105): the host's program ends, so of what was planned only the reset input, which is not the
host's, is left. -/
def hostHalt (s : State) : State := { s with host := s.host.filter fun a => a == .assertReset }

/-- One action from outside the block. -/
def perform (a : HostAction) (s : State) : Host.Outcome State Fault Refusal :=
  match a with
  | .read off width => hostRead off width s
  | .write off width v => hostWrite off width v s
  | .copy dst src => hostCopy dst src s
  | .branch r mask value nThen nElse => hostBranch r mask value nThen nElse s
  | .halt => .next (hostHalt s)
  | .assertReset => .next (blockReset s)

/-- The state with one more action for the host to take first. -/
def State.issue (s : State) (a : HostAction) : State := { s with host := a :: s.host }

end Sys2Proof.Machine
end

