-- ==== Sys2Proof/Machine/Step.lean ====
section
/-! DEFINITION. One step of the machine: the next action from outside the block. -/

namespace Sys2Proof.Machine

/-- One step (00_scope.md R3, 20_memory.md R79: accesses one at a time, in the host's order). The block takes no step of
its own (10_state.md R30), so a machine for which nothing is to be done stays as it is (70_reset_and_hazards.md R285;
log 3). -/
def step (s : State) : Host.Outcome State Fault Refusal :=
  match s.host with
  | [] => .next s
  | a :: rest => perform a { s with host := rest }

/-- The state in which the host's next access is the write of the command word `w` to CMD, which is how a command comes
to run (20_memory.md R73; log 8). -/
def State.withFetchWord (s : State) (nbits w : Nat) : State :=
  s.issue (.write Reg.cmd.offset 32 (BitVec.ofNat 32 (w % 2 ^ nbits)))

end Sys2Proof.Machine
end

