-- ==== Sys2Proof/Machine/HostNotation.lean ====
section
/-! DEFINITION. The host's notation (30_encoding.md R105) and its pseudo-instructions (R106), as the host actions each
line stands for. A host program is a list of actions in `host`; the block sees only the accesses. -/

namespace Sys2Proof.Machine.Notation

/-- `wr NAME, imm32` (R105). -/
def wr (r : Reg) (imm : Word) : List HostAction := [.write r.offset 32 imm]

/-- `rd NAME` (R105). -/
def rd (r : Reg) : List HostAction := [.read r.offset 32]

/-- The line of a command, `generate` to `decsym c`: `wr CMD` of its command word (R105). -/
def command (i : Instr) : List HostAction := wr .cmd (encode i)

/-- `if (NAME & m) = v: ... else: ... end` (R105). -/
def ifThen (r : Reg) (mask value : Word) (thn els : List HostAction) : List HostAction :=
  .branch r mask value thn.length els.length :: (thn ++ els)

/-- `for k = a..b: ... end`: the lines run once for each `k`, with `k` put into their literals (R105). -/
def forLoop (a b : Nat) (body : Nat → List HostAction) : List HostAction :=
  (List.range' a (b + 1 - a)).flatMap body

/-- `halt` (R105). -/
def halt : List HostAction := [.halt]

/-- The 29 register names, in the order of `Reg.all` (10_state.md R33). -/
def regNames : List String :=
  ["CMD", "STATUS", "TS_IN_LO", "TS_IN_HI", "ENT_CTRL", "ENT_IN0", "ENT_IN1", "ENT_IN2", "STR_CTRL"] ++
  ["STR_IN0", "STR_IN1", "STR_IN2", "STR_IN3", "STR_IN4", "STR_IN5", "STR_IN6"] ++
  ["TS_OUT_LO", "TS_OUT_HI", "ENT_OUT0", "ENT_OUT1", "ENT_OUT2"] ++
  ["STR_OUT0", "STR_OUT1", "STR_OUT2", "STR_OUT3", "STR_OUT4", "STR_OUT5", "STR_OUT6", "SYM_OUT"]

/-- The register a NAME stands for; names are case-insensitive (R105). -/
def regNamed (name : String) : Option Reg :=
  ((regNames.zip Reg.all).find? fun p => p.1.toList == name.toList.map Char.toUpper).map Prod.snd

/-- A quoted text as character codes. A character outside ASCII is presented as some code in 0x80..0xFF, here 0xFF, all
of which are unmapped (92_eei_decisions.md D9; log 10). -/
def chars (text : String) : List Byte :=
  text.toList.map fun c => if c.toNat < 0x80 then BitVec.ofNat 8 c.toNat else 0xFF

/-- The descriptor of a present operand of length `n`; a length above 65535 is presented as 65535 (R106). -/
def descriptor (n : Nat) : Word := 0x80000000 ||| BitVec.ofNat 32 (min n 65535)

/-- `ldts t` (R106). A negative literal is its 64-bit two's complement, `BitVec.ofInt 64`. -/
def ldts (t : BitVec 64) : List HostAction :=
  wr .tsInLo (t.extractLsb' 0 32) ++ wr .tsInHi (t.extractLsb' 32 32)

/-- `ldent b0, ..., b(n-1)` (R106). Bytes beyond b9 are not written, and missing bytes are 0x00. -/
def ldent (b : List Byte) : List HostAction :=
  wr (.entIn 0) (packedWord (b.take 10) 0) ++ wr (.entIn 1) (packedWord (b.take 10) 1) ++
    wr (.entIn 2) (packedWord (b.take 10) 2) ++ wr .entCtrl (descriptor b.length)

/-- `ldent none` (R106). -/
def ldentNone : List HostAction := wr .entCtrl 0x00000000

/-- `ldent zero10` (R106). -/
def ldentZero10 : List HostAction := ldent (List.replicate 10 0)

/-- `ldstr "text"` (R106). Characters at positions `min(n, 26)` and above are taken as 0x00. -/
def ldstr (text : List Byte) : List HostAction :=
  ((List.finRange 7).flatMap fun k => wr (.strIn k) (packedWord (text.take 26) k.val)) ++
    wr .strCtrl (descriptor text.length)

/-- `ldstr none` (R106). -/
def ldstrNone : List HostAction := wr .strCtrl 0x00000000

/-- `rdstr` (R106). -/
def rdstr : List HostAction := (List.finRange 7).flatMap fun k => rd (.strOut k)

/-- How the host unpacks the seven words of `rdstr` (R106, 10_state.md R42). -/
def unpackStr (w : List Word) : List Byte := List.ofFn fun i : Fin 26 => byteOf (w.getD (i.val / 4) 0) i.val

/-- `rdts` (R106). -/
def rdts : List HostAction := rd .tsOutLo ++ rd .tsOutHi

/-- How the host forms the timestamp from the two words of `rdts`: `TS_OUT_HI[15:0] ++ TS_OUT_LO` (R106). -/
def unpackTs (lo hi : Word) : BitVec 48 := hi.extractLsb' 0 16 ++ lo

/-- `rdent` (R106). -/
def rdent : List HostAction := (List.finRange 3).flatMap fun k => rd (.entOut k)

/-- How the host unpacks the three words of `rdent` (R106, 10_state.md R41). -/
def unpackEnt (w : List Word) : List Byte := List.ofFn fun j : Fin 10 => byteOf (w.getD (j.val / 4) 0) j.val

/-- `cp DST, SRC` (R106). -/
def cp (dst src : Reg) : List HostAction := [.copy dst src]

/-- `cpstr` (R106): STR_CTRL is written present, LEN = 26. -/
def cpstr : List HostAction :=
  ((List.finRange 7).flatMap fun k => cp (.strIn k) (.strOut k)) ++ wr .strCtrl 0x8000001A

/-- `cpts` (R106). -/
def cpts : List HostAction := cp .tsInLo .tsOutLo ++ cp .tsInHi .tsOutHi

/-- `cpent` (R106): ENT_CTRL is written present, LEN = 10. -/
def cpent : List HostAction :=
  ((List.finRange 3).flatMap fun k => cp (.entIn k) (.entOut k)) ++ wr .entCtrl 0x8000000A

end Sys2Proof.Machine.Notation
end

