-- ==== Sys2Proof/Safety.lean ====
section
/-! DEFINITION. The terms claims use: what a command that failed or succeeded may have changed (00_scope.md R11), which
registers it reads and writes (30_encoding.md R102), the invariant of the register file (10_state.md R34, R45), and the
runs in which the host makes only admitted accesses (20_memory.md R72, 70_reset_and_hazards.md R285). -/

namespace Sys2Proof.Machine

/-- The agents outside the block are left as they were. -/
def SameOutside (s t : State) : Prop :=
  t.host = s.host ∧ t.reads = s.reads ∧ t.draws = s.draws ∧ t.drawCount = s.drawCount

/-- No register outside the list has changed, and of STATUS at most ERR has, whether or not STATUS is listed. -/
def ChangedOnly (written : List Reg) (s t : State) : Prop :=
  (∀ r, r ≠ .status → r ∉ written → t.get r = s.get r) ∧
    (t.get .status).extractLsb' 4 28 = (s.get .status).extractLsb' 4 28

/-- The command raised `e`: STATUS.ERR holds its code and nothing else has changed (00_scope.md R11). -/
def Failed (e : ErrorKind) (s t : State) : Prop := t.err = e.code ∧ ChangedOnly [] s t ∧ SameOutside s t

/-- The command succeeded: STATUS.ERR is 0 and only the listed registers may have changed besides. -/
def Succeeded (written : List Reg) (s t : State) : Prop := t.err = 0 ∧ ChangedOnly written s t ∧ SameOutside s t

/-- STR_OUT0 .. STR_OUT6. -/
def strOutRegs : List Reg := [.strOut 0, .strOut 1, .strOut 2, .strOut 3, .strOut 4, .strOut 5, .strOut 6]

/-- TS_OUT_LO and TS_OUT_HI. -/
def tsOutRegs : List Reg := [.tsOutLo, .tsOutHi]

/-- ENT_OUT0 .. ENT_OUT2. -/
def entOutRegs : List Reg := [.entOut 0, .entOut 1, .entOut 2]

/-- The string operand's registers (10_state.md R38, R39). -/
def strOperandRegs : List Reg :=
  [.strCtrl, .strIn 0, .strIn 1, .strIn 2, .strIn 3, .strIn 4, .strIn 5, .strIn 6]

/-- The operand registers a command reads (30_encoding.md R102, "operands read"). -/
def operandRegs : Instr → List Reg
  | .generate => [.tsInLo, .tsInHi, .entCtrl, .entIn 0, .entIn 1, .entIn 2]
  | .random => []
  | .parse => strOperandRegs
  | .isvalid => strOperandRegs
  | .getts => strOperandRegs
  | .getent => strOperandRegs
  | .decode => strOperandRegs
  | .encsym _ => []
  | .decsym _ => []

/-- The result registers a command writes besides STATUS (30_encoding.md R102, "results written"). -/
def resultRegs : Instr → List Reg
  | .generate => strOutRegs
  | .random => strOutRegs
  | .parse => strOutRegs
  | .isvalid => []
  | .getts => tsOutRegs
  | .getent => entOutRegs
  | .decode => tsOutRegs ++ entOutRegs
  | .encsym _ => [.symOut]
  | .decsym _ => [.symOut]

/-- STR_OUT0 .. STR_OUT6 hold the string, all 32 bits of each (10_state.md R42). -/
def HoldsStr (b : List Byte) (t : State) : Prop := ∀ k : Fin 7, t.get (.strOut k) = packedWord b k.val

/-- TS_OUT holds the timestamp zero-extended to 64 bits (10_state.md R40). -/
def HoldsTs (ts : BitVec 48) (t : State) : Prop :=
  t.get .tsOutLo = ts.extractLsb' 0 32 ∧ t.get .tsOutHi = (ts.extractLsb' 32 16).setWidth 32

/-- ENT_OUT0 .. ENT_OUT2 hold the entropy, all 32 bits of each (10_state.md R41). -/
def HoldsEnt (e : List Byte) (t : State) : Prop := ∀ k : Fin 3, t.get (.entOut k) = packedWord e k.val

/-- Every result register of the command holds, in `t`, the result the command's rule gives from `s`: the whole result of
60_exceptions.md R252. -/
def WholeResult (i : Instr) (s t : State) : Prop :=
  match i with
  | .generate => HoldsStr (encodeStr (s.ts64.extractLsb' 0 48) s.entBytes) t
  | .random => ∃ b, (nextDraw s).entropy = .bytes b ∧
      HoldsStr (encodeStr ((nextDraw s).clock.extractLsb' 0 48) b) t
  | .parse => HoldsStr (s.strChars.map fold) t
  | .isvalid => t.valid = (validate s).isNone
  | .getts => HoldsTs (timestampOf s.strChars) t
  | .getent => HoldsEnt (entropyOf s.strChars) t
  | .decode => HoldsTs (timestampOf s.strChars) t ∧ HoldsEnt (entropyOf s.strChars) t
  | .encsym rank => ∃ c, encTable[rank]? = some c ∧ t.get .symOut = c.setWidth 32
  | .decsym char => ∃ r, rankOf char = some r ∧ t.get .symOut = r.setWidth 32

/-- A string of 26 characters that all have a rank (42_validator.md R180). -/
def ValidString (str : List Byte) : Prop := str.length = 26 ∧ ∀ c ∈ str, (rankOf c).isSome

/-- Every character is an uppercase symbol or a digit of the alphabet (40_alphabet.md R130). -/
def Uppercase (str : List Byte) : Prop := ∀ c ∈ str, c ∈ encTable

/-- The first character's rank is 0..7 (41_packer.md R161). -/
def FirstRankBelow8 (str : List Byte) : Prop := (rankOfValid (str.headD 0)).toNat < 8

/-- The 130-bit value as 41_packer.md R154 sums it: the sum of `g[i] * 2^(125-5i)`. -/
def paddedSum (str : List Byte) : Nat :=
  ∑ i : Fin 26, (rankOfValid (str.getD i.val 0)).toNat * 2 ^ (125 - 5 * i.val)

/-- The invariant of the register file: every reserved or hardwired bit is 0 (10_state.md R34, R40 to R43) and
STATUS.ERR is one of 0..6 (R45). -/
def State.Inv (s : State) : Prop := (∀ r : Reg, s.get r &&& ~~~r.mask = 0) ∧ s.err.toNat ≤ 6

/-- The action makes no access that the window does not admit (20_memory.md R72). The host's reading forms name a
register and so are always admitted. -/
def HostAction.isAdmitted : HostAction → Bool
  | .read off width => admitted off width
  | .write off width _ => admitted off width
  | .copy _ _ => true
  | .branch _ _ _ _ _ => true
  | .halt => true
  | .assertReset => true

/-- A host that makes only admitted accesses. -/
def State.HostDisciplined (s : State) : Prop := ∀ a ∈ s.host, a.isAdmitted = true

/-- What a host program shows: the values its reads returned and the register file (70_reset_and_hazards.md R285). -/
def State.observation (s : State) : List Word × RegFile := (s.reads, s.regs)

/-- The run of `n` steps from `s` is not faulted (70_reset_and_hazards.md R285). -/
def RunsWithoutFault (s : State) (n : Nat) : Prop := ∃ t, Sys2Proof.core.run n s = .next t

end Sys2Proof.Machine
end

