-- ==== Sys2Proof/Certificates/Slice0/Obligations.lean ====
section
/-! DEFINITION. The statements for the provers. Each docstring says which rule of `spec/` the statement formalises, or,
where the spec marks the sentence as derived from its own rules, which derived rule it follows. -/

open Sys2Proof Sys2Proof.Machine

/-! ### The command word -/

/-- Every command has a word that decodes to it, with every operand at every value ARG admits (30_encoding.md R100 to
R103). -/
def Obligations.DecodeOfEncodeIsTheCommand : Prop :=
  ∀ i : Instr, i.wellFormed = true → decode (encode i) = .instr i

/-- A word selects at most one command and is the only word that selects it: decoding loses no bit (30_encoding.md R100,
R101). -/
def Obligations.EncodeOfDecodeIsTheWord : Prop :=
  ∀ (w : Word) (i : Instr), decode w = .instr i → i.wellFormed = true ∧ encode i = w

/-- The words that select a command are those that fit a row of opcode_table.json, under the row's mnemonic
(30_encoding.md R102). -/
def Obligations.CommandWordsAreTheTableRows : Prop :=
  ∀ (w : Word) (m : String),
    (∃ i, decode w = .instr i ∧ i.mnemonic = m) ↔ ∃ row ∈ opcodeRows, row.fits w = true ∧ row.mnemonic = m

/-- Words written out from 30_encoding.md R102 and 95_test_vectors.md L2-1, L2-2 and L2-9 decode to the command they
stand for. -/
def Obligations.WrittenOutWordsDecode : Prop :=
  decode 0x00000001 = .instr .generate ∧ decode 0x00000002 = .instr .random ∧ decode 0x00000003 = .instr .parse ∧
    decode 0x00000004 = .instr .isvalid ∧ decode 0x00000005 = .instr .getts ∧ decode 0x00000006 = .instr .getent ∧
    decode 0x00000007 = .instr .decode ∧ decode 0x00001208 = .instr (.encsym 18) ∧
    decode 0x0000FF08 = .instr (.encsym 255) ∧ decode 0x00006D09 = .instr (.decsym 0x6D) ∧
    decode 0x00000000 = .rejected .unassignedOpcode ∧ decode 0x00000011 = .rejected .reservedBits ∧
    decode 0x00000101 = .rejected .argNotZero

/-- R104: the three kinds of illegal word each raise ILLEGAL_COMMAND, whatever the operands; no other word is illegal,
and the all-zero word is. The write has stored the word in CMD by then (20_memory.md R73). -/
def Obligations.IllegalWordsRaiseIllegalCommand : Prop :=
  ∀ (s : State) (w : Word) (rest : List HostAction), s.host = .write 0x00 32 w :: rest →
    ((rsv0Field w ≠ 0 ∨ rsv1Field w ≠ 0 ∨ opField w = 0x0 ∨ 0xA ≤ (opField w).toNat ∨
        (1 ≤ (opField w).toNat ∧ (opField w).toNat ≤ 7 ∧ argField w ≠ 0)) →
      ∃ t, step s = .next t ∧ Failed .illegalCommand { s.set .cmd w with host := rest } t) ∧
    (¬ (rsv0Field w ≠ 0 ∨ rsv1Field w ≠ 0 ∨ opField w = 0x0 ∨ 0xA ≤ (opField w).toNat ∨
        (1 ≤ (opField w).toNat ∧ (opField w).toNat ≤ 7 ∧ argField w ≠ 0)) → ∃ i, decode w = .instr i)

/-! ### Steps and the host port -/

/-- A step whose access is the write of a command word stores the word in CMD and runs the command it decodes to
(30_encoding.md R101, 20_memory.md R73). -/
def Obligations.StepRunsTheDecodedCommand : Prop :=
  ∀ (s : State) (w : Word) (i : Instr) (rest : List HostAction), s.host = .write 0x00 32 w :: rest →
    decode w = .instr i → step s = exec i { s.set .cmd w with host := rest }

/-- R72: an access of another width, at an unaligned offset or outside the window is the fault
`HostAccessFault(off, width)`: the step answers no state, so nothing is stored, split or partly written, and however
many steps follow, the run stays faulted. -/
def Obligations.InadmissibleAccessIsAFault : Prop :=
  ∀ (s : State) (off width : Nat) (rest : List HostAction), (width ≠ 32 ∨ off % 4 ≠ 0 ∨ 0x7F < off) →
    (s.host = .read off width :: rest ∨ ∃ v, s.host = .write off width v :: rest) →
    step s = .fault (.hostAccessFault off width) ∧
      ∀ n, Sys2Proof.core.run (n + 1) s = .fault (.hostAccessFault off width)

/-- Only an access that the window does not admit stops the machine, and nothing is ever refused (20_memory.md R72,
30_encoding.md R101 "Exec is total"). -/
def Obligations.NothingElseStopsTheMachine : Prop :=
  ∀ s : State, (∃ t, step s = .next t) ∨
    ∃ off width rest, (width ≠ 32 ∨ off % 4 ≠ 0 ∨ 0x7F < off) ∧ step s = .fault (.hostAccessFault off width) ∧
      (s.host = .read off width :: rest ∨ ∃ v, s.host = .write off width v :: rest)

/-- R71: an admitted `RegRead` returns the slot's value by R34's rules and changes no register; an admitted `RegWrite`
stores into an RW register only, its reserved bits 0. At offset 0x00 the word is executed besides (20_memory.md R73);
every other register is then only stored to. Neither primitive is defined for another offset or width. -/
def Obligations.HostReadAndWriteReachTheSlots : Prop :=
  (∀ (s : State) (r : Reg) (rest : List HostAction), s.host = .read r.offset 32 :: rest →
    step s = .next { s with host := rest, reads := s.reads ++ [s.get r &&& r.mask] }) ∧
  (∀ (s : State) (off : Nat) (rest : List HostAction), s.host = .read off 32 :: rest →
    off = 0x74 ∨ off = 0x78 ∨ off = 0x7C → step s = .next { s with host := rest, reads := s.reads ++ [0] }) ∧
  (∀ (s : State) (r : Reg) (v : Word) (rest : List HostAction), s.host = .write r.offset 32 v :: rest →
    r.writable = true → r ≠ .cmd → step s = .next { s.set r (v &&& r.mask) with host := rest }) ∧
  (∀ (s : State) (r : Reg) (v : Word) (rest : List HostAction), s.host = .write r.offset 32 v :: rest →
    r.writable = false → step s = .next { s with host := rest }) ∧
  (∀ (s : State) (off : Nat) (v : Word) (rest : List HostAction), s.host = .write off 32 v :: rest →
    off = 0x74 ∨ off = 0x78 ∨ off = 0x7C → step s = .next { s with host := rest }) ∧
  (∀ (s : State) (w : Word) (rest : List HostAction), s.host = .write 0x00 32 w :: rest →
    ∃ t, step s = .next t ∧ t.get .cmd = w) ∧
  (∀ (s t : State) (off width : Nat) (rest : List HostAction),
    (s.host = .read off width :: rest ∨ ∃ v, s.host = .write off width v :: rest) → step s = .next t →
    width = 32 ∧ ∃ k, k < 32 ∧ off = 4 * k)

/-- R34, its four access rules: reserved bits read 0 and ignore writes, RO registers ignore writes, reserved offsets
read 0 and ignore writes, and no read changes a register. The first clause gives the bits of each register that are
neither reserved nor hardwired to 0, as the field tables of 10_state.md R35 to R45 list them. -/
def Obligations.AccessRulesHoldForEveryRegister : Prop :=
  (Reg.mask .cmd = 0xFFFFFFFF ∧ Reg.mask .status = 0x0000010F ∧ Reg.mask .tsInLo = 0xFFFFFFFF ∧
    Reg.mask .tsInHi = 0xFFFFFFFF ∧ Reg.mask .entCtrl = 0x8000FFFF ∧ Reg.mask (.entIn 0) = 0xFFFFFFFF ∧
    Reg.mask (.entIn 1) = 0xFFFFFFFF ∧ Reg.mask (.entIn 2) = 0xFFFF0000 ∧ Reg.mask .strCtrl = 0x8000FFFF ∧
    (∀ k : Fin 6, Reg.mask (.strIn k.castSucc) = 0xFFFFFFFF) ∧ Reg.mask (.strIn 6) = 0xFFFF0000 ∧
    Reg.mask .tsOutLo = 0xFFFFFFFF ∧ Reg.mask .tsOutHi = 0x0000FFFF ∧ Reg.mask (.entOut 0) = 0xFFFFFFFF ∧
    Reg.mask (.entOut 1) = 0xFFFFFFFF ∧ Reg.mask (.entOut 2) = 0xFFFF0000 ∧
    (∀ k : Fin 6, Reg.mask (.strOut k.castSucc) = 0xFFFFFFFF) ∧ Reg.mask (.strOut 6) = 0xFFFF0000 ∧
    Reg.mask .symOut = 0x000000FF) ∧
  (∀ (s t : State) (r : Reg) (rest : List HostAction), s.host = .read r.offset 32 :: rest → step s = .next t →
    ∃ v, t.reads = s.reads ++ [v] ∧ v &&& ~~~r.mask = 0 ∧ v &&& r.mask = s.get r &&& r.mask) ∧
  (∀ (s t : State) (r : Reg) (v : Word) (rest : List HostAction), s.host = .write r.offset 32 v :: rest →
    r ≠ .cmd → r.writable = true → step s = .next t → t.get r &&& ~~~r.mask = 0 ∧ ∀ r', r' ≠ r → t.get r' = s.get r') ∧
  (∀ (s t : State) (r : Reg) (v : Word) (rest : List HostAction), s.host = .write r.offset 32 v :: rest →
    r.writable = false → step s = .next t → t.regs = s.regs) ∧
  (∀ (s t : State) (off : Nat) (rest : List HostAction), off = 0x74 ∨ off = 0x78 ∨ off = 0x7C → step s = .next t →
    (s.host = .read off 32 :: rest → t.reads = s.reads ++ [0]) ∧
    (∀ v, s.host = .write off 32 v :: rest → t.regs = s.regs)) ∧
  (∀ (s t : State) (off width : Nat) (rest : List HostAction), s.host = .read off width :: rest → step s = .next t →
    t.regs = s.regs)

/-- A value written to an RW register other than CMD is read back with its reserved bits 0 (10_state.md R34,
20_memory.md R79 "A read returns the value of the latest write to that register"). -/
def Obligations.ReadAfterWriteGivesTheValueWritten : Prop :=
  ∀ (s : State) (r : Reg) (v : Word) (rest : List HostAction), r.writable = true → r ≠ .cmd →
    s.host = .write r.offset 32 v :: .read r.offset 32 :: rest →
    ∃ t u, step s = .next t ∧ step t = .next u ∧ u.reads = s.reads ++ [v &&& r.mask] ∧ u.host = rest ∧
      ∀ r', r' ≠ r → u.get r' = s.get r'

/-- R44: a write to CMD stores all 32 bits, whether or not the word is legal, and then executes the word; no command
writes CMD; a read returns the stored word and starts nothing. -/
def Obligations.CmdHoldsTheLastWordWritten : Prop :=
  (∀ (s : State) (w : Word) (rest : List HostAction), s.host = .write 0x00 32 w :: rest →
    ∃ t, step s = .next t ∧ execWord w { s.set .cmd w with host := rest } = .next t ∧ t.get .cmd = w) ∧
  (∀ (i : Instr) (s t : State), exec i s = .next t → t.get .cmd = s.get .cmd) ∧
  (∀ (s : State) (rest : List HostAction), s.host = .read 0x00 32 :: rest →
    step s = .next { s with host := rest, reads := s.reads ++ [s.get .cmd] })

/-- The reset input, one step between accesses: every register holds 0, no command runs and no draw is taken
(70_reset_and_hazards.md R280, 10_state.md R49). That the host's plan, the values read and the answers ready are kept is
the model's own (log 9). -/
def Obligations.ResetInputClearsEveryRegister : Prop :=
  ∀ (s : State) (rest : List HostAction), s.host = .assertReset :: rest →
    ∃ t, step s = .next t ∧ (∀ r : Reg, t.get r = 0) ∧
      t.host = rest ∧ t.reads = s.reads ∧ t.draws = s.draws ∧ t.drawCount = s.drawCount

/-- R49: after reset every register holds 0x00000000, the descriptors say "absent", ERR and VALID are 0. The tables are
constants that no state holds. -/
def Obligations.EveryRegisterIsZeroAfterReset : Prop :=
  (∀ r : Reg, State.reset.get r = 0x00000000) ∧ presentField (State.reset.get .entCtrl) = false ∧
    presentField (State.reset.get .strCtrl) = false ∧ State.reset.err = 0 ∧ State.reset.valid = false

/-- The block takes no step of its own: where nothing from outside is to be done, a step changes nothing (10_state.md
R30; the model's reading, log 3). -/
def Obligations.NothingHappensWithoutAHostAction : Prop :=
  ∀ s : State, s.host = [] → step s = .next s

/-- The host's `cp DST, SRC`: a read of SRC, after which the host's next access is the write of the value read to DST. For
an RW register DST other than CMD that write stores the value, and for an RO register it is ignored (30_encoding.md R106;
the queue is the model's own, log 1). -/
def Obligations.CopyReadsThenWrites : Prop :=
  ∀ (s : State) (dst src : Reg) (rest : List HostAction), s.host = .copy dst src :: rest →
    ∃ t, step s = .next t ∧ t.regs = s.regs ∧ t.reads = s.reads ++ [s.get src &&& src.mask] ∧
      t.host = .write dst.offset 32 (s.get src &&& src.mask) :: rest ∧
      (dst ≠ .cmd → ∃ u, step t = .next u ∧ u.host = rest ∧ u.reads = t.reads ∧
        (dst.writable = true → u.get dst = s.get src &&& src.mask &&& dst.mask) ∧
        (dst.writable = false → u.get dst = s.get dst) ∧ ∀ r, r ≠ dst → u.get r = s.get r)

/-- The host's `if` reads its register once and goes on with the first group or the second (30_encoding.md R105; the
queue is the model's own, log 1). -/
def Obligations.BranchReadsOnceAndChoosesAGroup : Prop :=
  ∀ (s : State) (r : Reg) (mask value : Word) (thn els rest : List HostAction),
    s.host = .branch r mask value thn.length els.length :: (thn ++ els ++ rest) →
    ∃ t, step s = .next t ∧ t.regs = s.regs ∧ t.reads = s.reads ++ [s.get r &&& r.mask] ∧
      (s.get r &&& r.mask &&& mask = value → t.host = thn ++ rest) ∧
      (s.get r &&& r.mask &&& mask ≠ value → t.host = els ++ rest)

/-- Every slot of the window is reached at `WINDOW_BASE + off`, wherever the platform puts the window; the 29 named
registers are at the offsets of R33's table, the host can write those the table marks RW and no other, and the admitted
offsets at which no register is named are exactly the reserved 0x74, 0x78 and 0x7C (20_memory.md R70, 10_state.md
R33). -/
def Obligations.EverySlotHasItsAddress : Prop :=
  (∀ off, offsetOfHostAddress (hostAddress off) = some off) ∧
    (∀ r : Reg, admitted r.offset 32 = true ∧ regAt r.offset = some r) ∧
    (∀ off, (admitted off 32 = true ∧ regAt off = none) ↔ off = 0x74 ∨ off = 0x78 ∨ off = 0x7C) ∧
    (Reg.offset .cmd = 0x00 ∧ Reg.offset .status = 0x04 ∧ Reg.offset .tsInLo = 0x08 ∧ Reg.offset .tsInHi = 0x0C ∧
      Reg.offset .entCtrl = 0x10 ∧ (∀ k : Fin 3, Reg.offset (.entIn k) = 0x14 + 4 * k.val) ∧
      Reg.offset .strCtrl = 0x20 ∧ (∀ k : Fin 7, Reg.offset (.strIn k) = 0x24 + 4 * k.val) ∧
      Reg.offset .tsOutLo = 0x40 ∧ Reg.offset .tsOutHi = 0x44 ∧
      (∀ k : Fin 3, Reg.offset (.entOut k) = 0x48 + 4 * k.val) ∧
      (∀ k : Fin 7, Reg.offset (.strOut k) = 0x54 + 4 * k.val) ∧ Reg.offset .symOut = 0x70) ∧
    (∀ r : Reg, r.writable = true ↔ r ∈ ([.cmd, .tsInLo, .tsInHi, .entCtrl, .entIn 0, .entIn 1, .entIn 2, .strCtrl,
      .strIn 0, .strIn 1, .strIn 2, .strIn 3, .strIn 4, .strIn 5, .strIn 6] : List Reg))

/-- The loading pseudo-instructions present their operand whatever the registers held (30_encoding.md R106,
70_reset_and_hazards.md R283; the queue is the model's own, log 1): `ldts`, `ldent` and `ldstr` are 2, 4 and 8 accesses,
after which the operand is present with its length, saturated at 65535, and its bytes or characters, missing ones 0 and
further ones not stored. No other register is written. -/
def Obligations.LoadingPseudosPresentTheirOperand : Prop :=
  (∀ (s : State) (v : BitVec 64) (rest : List HostAction), s.host = Notation.ldts v ++ rest →
    ∃ t, Sys2Proof.core.run 2 s = .next t ∧ t.host = rest ∧ t.ts64 = v ∧
      ∀ r, r ≠ .tsInLo → r ≠ .tsInHi → t.get r = s.get r) ∧
  (∀ (s : State) (b : List Byte) (rest : List HostAction), s.host = Notation.ldent b ++ rest →
    ∃ t, Sys2Proof.core.run 4 s = .next t ∧ t.host = rest ∧
      (t.get .entCtrl).toNat = 2 ^ 31 + min b.length 65535 ∧
      (∀ j : Fin 10, t.entBytes.getD j.val 0 = b.getD j.val 0) ∧
      ∀ r, r ∉ [Reg.entCtrl, .entIn 0, .entIn 1, .entIn 2] → t.get r = s.get r) ∧
  (∀ (s : State) (text : List Byte) (rest : List HostAction), s.host = Notation.ldstr text ++ rest →
    ∃ t, Sys2Proof.core.run 8 s = .next t ∧ t.host = rest ∧
      (t.get .strCtrl).toNat = 2 ^ 31 + min text.length 65535 ∧
      (∀ i : Fin 26, t.strChars.getD i.val 0 = text.getD i.val 0) ∧
      ∀ r, r ∉ strOperandRegs → t.get r = s.get r)

/-! ### The alphabet and the lookup commands -/

/-- R131: DEC_TABLE maps a code exactly where it is a symbol or the lowercase form of a letter symbol; 54 codes are
mapped, 10 digits, 22 uppercase and 22 lowercase letters; the unmapped ones are those the rule lists. -/
def Obligations.DecTableMapsExactly54Codes : Prop :=
  (∀ (c : Byte) (r : Rank), rankOf c = some r ↔
    encTable[r.toNat]? = some c ∨ ∃ u, encTable[r.toNat]? = some u ∧ 0x41 ≤ u.toNat ∧ u.toNat ≤ 0x5A ∧ c = u + 0x20) ∧
  (let mapped := (List.finRange 256).filter fun c => (rankOf (BitVec.ofFin c)).isSome;
    mapped.length = 54 ∧ (mapped.filter fun c => 0x30 ≤ c.val ∧ c.val ≤ 0x39).length = 10 ∧
    (mapped.filter fun c => 0x41 ≤ c.val ∧ c.val ≤ 0x5A).length = 22 ∧
    (mapped.filter fun c => 0x61 ≤ c.val ∧ c.val ≤ 0x7A).length = 22) ∧
  (∀ c : Byte, rankOf c = none ↔
    (c.toNat ≤ 0x2F ∨ (0x3A ≤ c.toNat ∧ c.toNat ≤ 0x40) ∨ c = 0x49 ∨ c = 0x4C ∨ c = 0x4F ∨ c = 0x55 ∨
      (0x5B ≤ c.toNat ∧ c.toNat ≤ 0x60) ∨ c = 0x69 ∨ c = 0x6C ∨ c = 0x6F ∨ c = 0x75 ∨ 0x7B ≤ c.toNat))

/-- The three properties of the tables, as 40_alphabet.md R133 derives them: strictly increasing in both cases, left
inverse, rank-preserving fold. -/
def Obligations.TablesIncreaseInvertAndFold : Prop :=
  (∀ r r' : Rank, r < r' → sym r < sym r' ∧
    (if 0x41 ≤ (sym r).toNat then sym r + 0x20 else sym r) <
      (if 0x41 ≤ (sym r').toNat then sym r' + 0x20 else sym r')) ∧
  (∀ r : Rank, rankOf (sym r) = some r) ∧
  (∀ (c : Byte) (r : Rank), rankOf c = some r →
    sym r = if 0x61 ≤ c.toNat ∧ c.toNat ≤ 0x7A then c - 0x20 else c)

/-- R134, ENCSYM: its word decodes to it for every ARG; OUT_OF_RANGE for a rank above 31 and nothing else written;
otherwise it completes, SYM_OUT takes ENC_TABLE's entry, zero-extended, and only ERR is written besides. -/
def Obligations.EncsymLooksUpTheSymbol : Prop :=
  (∀ arg : Byte, decode ((arg.setWidth 32 <<< 8) ||| 0x00000008) = .instr (.encsym arg.toNat)) ∧
  ∀ (rank : Nat) (s : State), ∃ t, exec (.encsym rank) s = .next t ∧
    (31 < rank → Failed .outOfRange s t) ∧
    (rank ≤ 31 → Succeeded [.symOut] s t ∧ ∃ c, encTable[rank]? = some c ∧ t.get .symOut = c.setWidth 32)

/-- R135, DECSYM: its word decodes to it for every ARG; ILLEGAL_SYMBOL for an unmapped code and nothing else written;
otherwise it completes, SYM_OUT takes the rank, zero-extended, and only ERR is written besides. -/
def Obligations.DecsymLooksUpTheRank : Prop :=
  (∀ arg : Byte, decode ((arg.setWidth 32 <<< 8) ||| 0x00000009) = .instr (.decsym arg)) ∧
  ∀ (char : Byte) (s : State), ∃ t, exec (.decsym char) s = .next t ∧
    (rankOf char = none → Failed .illegalSymbol s t) ∧
    (∀ r, rankOf char = some r → Succeeded [.symOut] s t ∧ t.get .symOut = r.setWidth 32)

/-- ENCSYM and DECSYM undo each other through SYM_OUT (40_alphabet.md R133 "Left inverse", a rule the spec derives):
ENCSYM of a rank and then DECSYM of the code it gave leave the rank in SYM_OUT. -/
def Obligations.DecsymUndoesEncsym : Prop :=
  ∀ (rank : Nat) (s : State), rank ≤ 31 → ∃ t u, exec (.encsym rank) s = .next t ∧
    exec (.decsym ((t.get .symOut).extractLsb' 0 8)) t = .next u ∧ u.err = 0 ∧ (u.get .symOut).toNat = rank

/-! ### The packer, on values -/

/-- R150 to R153: `Encode` in exact arithmetic. `P` is `t * 2^80 + be(e)` under two zero bits, group `i` its bits
`129-5i : 125-5i`, and character `i` ENC_TABLE's entry for it. -/
def Obligations.EncodeSlicesThePaddedValue : Prop :=
  ∀ (t : BitVec 48) (e : List Byte), e.length = 10 →
    (packValue t e).toNat = t.toNat * 2 ^ 80 + be e ∧
    (padValue (packValue t e)).toNat = (packValue t e).toNat ∧
    (encodeStr t e).length = 26 ∧
    ∀ i : Nat, i < 26 →
      (group (padValue (packValue t e)) i).toNat = (t.toNat * 2 ^ 80 + be e) / 2 ^ (125 - 5 * i) % 32 ∧
      (encodeStr t e)[i]? = encTable[(t.toNat * 2 ^ 80 + be e) / 2 ^ (125 - 5 * i) % 32]?

/-- R154 and R155: `Decode` of a string of 26 mapped characters in exact arithmetic. `P` is the sum of
`g[i] * 2^(125-5i)`, its two top bits are dropped, and the fields are cut from the rest, the entropy's first byte the
most significant. -/
def Obligations.DecodeDropsTheTopTwoBits : Prop :=
  (∀ g : Fin 26 → Rank, (unslice (List.ofFn g)).toNat = ∑ i : Fin 26, (g i).toNat * 2 ^ (125 - 5 * i.val)) ∧
  ∀ str : List Byte, ValidString str →
    (paddedOf str).toNat = paddedSum str ∧
    (timestampOf str).toNat = paddedSum str % 2 ^ 128 / 2 ^ 80 ∧
    (entropyOf str).length = 10 ∧ be (entropyOf str) = paddedSum str % 2 ^ 80

/-- The field boundaries, as 41_packer.md R157 derives them: the timestamp depends only on characters 0..9, the entropy
only on characters 10..25, each the number its characters' ranks write in base 32. -/
def Obligations.TimestampIsTheFirstTenCharacters : Prop :=
  ∀ str : List Byte, ValidString str →
    (timestampOf str).toNat =
      (∑ i : Fin 10, (rankOfValid (str.getD i.val 0)).toNat * 32 ^ (9 - i.val)) % 2 ^ 48 ∧
    be (entropyOf str) =
      ∑ i : Fin 16, (rankOfValid (str.getD (10 + i.val) 0)).toNat * 32 ^ (15 - i.val)

/-- The round trip, as 41_packer.md R159 states it (Invariant I1 and its converses): decoding an encoded pair gives the
pair; encoding a decoded valid string whose first rank is 0..7 gives its fold, which is the string itself where it is
uppercase. -/
def Obligations.RoundTripOfEncodeAndDecode : Prop :=
  (∀ (t : BitVec 48) (e : List Byte), e.length = 10 →
    timestampOf (encodeStr t e) = t ∧ entropyOf (encodeStr t e) = e) ∧
  (∀ str : List Byte, ValidString str → FirstRankBelow8 str →
    encodeStr (timestampOf str) (entropyOf str) = str.map fold ∧
    (Uppercase str → encodeStr (timestampOf str) (entropyOf str) = str))

/-- The order law, as 41_packer.md R160 states it (Invariant I2 corrected by 90_conflicts.md C1): over strings `Encode`
can produce, string order is the order of `V`, and of the pair; over all valid uppercase strings it is the order of the
130-bit `P`. -/
def Obligations.StringOrderIsNumericOrder : Prop :=
  (∀ s1 s2 : List Byte, ValidString s1 → ValidString s2 → Uppercase s1 → Uppercase s2 →
    (s1 < s2 ↔ (paddedOf s1).toNat < (paddedOf s2).toNat)) ∧
  (∀ s1 s2 : List Byte, ValidString s1 → ValidString s2 → Uppercase s1 → Uppercase s2 →
    FirstRankBelow8 s1 → FirstRankBelow8 s2 →
    (s1 < s2 ↔ (valueOf s1).toNat < (valueOf s2).toNat) ∧
    (s1 < s2 ↔ (timestampOf s1).toNat < (timestampOf s2).toNat ∨
      ((timestampOf s1).toNat = (timestampOf s2).toNat ∧ be (entropyOf s1) < be (entropyOf s2))))

/-- The top symbol, as 41_packer.md R161 derives it: a first symbol of rank `r0` decodes as one of rank `r0 mod 8`, and
`Encode` never emits a first symbol of rank above 7. -/
def Obligations.FirstRankDecodesModulo8 : Prop :=
  (∀ (c c' : Byte) (rest : List Byte), ValidString (c :: rest) → ValidString (c' :: rest) →
    (rankOfValid c).toNat % 8 = (rankOfValid c').toNat % 8 →
    timestampOf (c :: rest) = timestampOf (c' :: rest) ∧ entropyOf (c :: rest) = entropyOf (c' :: rest)) ∧
  (∀ (t : BitVec 48) (e : List Byte), e.length = 10 → FirstRankBelow8 (encodeStr t e))

/-! ### Operands and results in registers -/

/-- The entropy operand as one number, as 10_state.md R37 derives it: `be(e)` is ENT_IN0, ENT_IN1 and the high half of
ENT_IN2 put together, and the low half of ENT_IN2 plays no part. -/
def Obligations.EntropyOperandIsBigEndian : Prop :=
  ∀ s : State, s.entBytes.length = 10 ∧
    be s.entBytes = (s.get (.entIn 0)).toNat * 2 ^ 48 + (s.get (.entIn 1)).toNat * 2 ^ 16 +
      (s.get (.entIn 2)).toNat / 2 ^ 16

/-- R180: `Validate` returns MISSING_INPUT, INVALID_LENGTH or ILLEGAL_SYMBOL at the first of its checks that fails, and
OK where none does. -/
def Obligations.ValidateReturnsTheFirstFailure : Prop :=
  ∀ s : State, let present := (s.get .strCtrl).toNat / 2 ^ 31 = 1
    let len := (s.get .strCtrl).toNat % 2 ^ 16
    (¬ present → validate s = some .missingInput) ∧
    (present → len ≠ 26 → validate s = some .invalidLength) ∧
    (present → len = 26 → (∃ i : Fin 26, rankOf (byteOf (s.get (.strIn ⟨i.val / 4, by omega⟩)) i.val) = none) →
      validate s = some .illegalSymbol) ∧
    (present → len = 26 → (∀ i : Fin 26, rankOf (byteOf (s.get (.strIn ⟨i.val / 4, by omega⟩)) i.val) ≠ none) →
      validate s = none)

/-! ### The commands -/

/-- R182, ISVALID: it always completes with ERR = 0, VALID tells whether `Validate` returned OK, and nothing else is
written. -/
def Obligations.IsvalidReportsValidity : Prop :=
  decode 0x00000004 = .instr .isvalid ∧
  ∀ s : State, ∃ t, exec .isvalid s = .next t ∧ t.err = 0 ∧ (t.valid = true ↔ validate s = none) ∧
    (∀ r, r ≠ .status → t.get r = s.get r) ∧
    (t.get .status).extractLsb' 4 4 = (s.get .status).extractLsb' 4 4 ∧
    (t.get .status).extractLsb' 9 23 = (s.get .status).extractLsb' 9 23 ∧ SameOutside s t

/-- R200, GENERATE: it completes with the first error of OUT_OF_RANGE, MISSING_INPUT, INVALID_LENGTH that applies and
nothing else written, or with `Encode` of its operands in STR_OUT and ERR = 0. -/
def Obligations.GenerateEncodesItsOperands : Prop :=
  decode 0x00000001 = .instr .generate ∧
  ∀ s : State, ∃ t, exec .generate s = .next t ∧
    let ts := (s.get .tsInHi).toNat * 2 ^ 32 + (s.get .tsInLo).toNat
    let present := (s.get .entCtrl).toNat / 2 ^ 31 = 1
    let len := (s.get .entCtrl).toNat % 2 ^ 16
    (2 ^ 48 ≤ ts → Failed .outOfRange s t) ∧
    (ts < 2 ^ 48 → ¬ present → Failed .missingInput s t) ∧
    (ts < 2 ^ 48 → present → len ≠ 10 → Failed .invalidLength s t) ∧
    (ts < 2 ^ 48 → present → len = 10 → Succeeded strOutRegs s t ∧
      (t.get (.strOut 6)).toNat % 2 ^ 16 = 0 ∧
      ∀ i : Nat, i < 26 → t.strOutChars[i]? = encTable[(ts * 2 ^ 80 + be s.entBytes) / 2 ^ (125 - 5 * i) % 32]?)

/-- R202, RANDOM, for every pair of draws the environment supplies: it completes with the first error of SOURCE_FAILURE,
OUT_OF_RANGE, INVALID_LENGTH that applies and nothing else written, or with `Encode` of the draws in STR_OUT and ERR = 0.
One pair of draws is taken in every case. -/
def Obligations.RandomEncodesItsDraws : Prop :=
  decode 0x00000002 = .instr .random ∧
  ∀ (s : State) (d : Draw) (ds : List Draw), s.draws = d :: ds → ∃ t, exec .random s = .next t ∧
    let s' := { s with draws := ds, drawCount := s.drawCount + 1 }
    (d.entropy = .fail → Failed .sourceFailure s' t) ∧
    (∀ b, d.entropy = .bytes b → 2 ^ 48 ≤ d.clock.toNat → Failed .outOfRange s' t) ∧
    (∀ b, d.entropy = .bytes b → d.clock.toNat < 2 ^ 48 → b.length ≠ 10 → Failed .invalidLength s' t) ∧
    (∀ b, d.entropy = .bytes b → d.clock.toNat < 2 ^ 48 → b.length = 10 → Succeeded strOutRegs s' t ∧
      (t.get (.strOut 6)).toNat % 2 ^ 16 = 0 ∧
      ∀ i : Nat, i < 26 → t.strOutChars[i]? = encTable[(d.clock.toNat * 2 ^ 80 + be b) / 2 ^ (125 - 5 * i) % 32]?)

/-- Where the environment has supplied no answer, RANDOM still runs, on free answers: it behaves as it would had those
answers been supplied. The free values and their numbering are the model's own (log 2). -/
def Obligations.RandomRunsWithoutSuppliedDraws : Prop :=
  ∀ s : State, s.draws = [] → ∃ (d : Draw) (t : State), exec .random s = .next t ∧
    exec .random { s with draws := [d] } = .next t ∧ t.draws = [] ∧ t.drawCount = s.drawCount + 1

/-- R205, PARSE: it completes with the error `Validate` returns and nothing else written, or with every character of the
string folded to its uppercase symbol in STR_OUT and ERR = 0. An uppercase input is returned unchanged, whatever the
rank of its first symbol. -/
def Obligations.ParseFoldsTheString : Prop :=
  decode 0x00000003 = .instr .parse ∧
  ∀ s : State, ∃ t, exec .parse s = .next t ∧
    (∀ e, validate s = some e → Failed e s t) ∧
    (validate s = none → Succeeded strOutRegs s t ∧ (t.get (.strOut 6)).toNat % 2 ^ 16 = 0 ∧
      (∀ i : Fin 26, ∃ r : Rank, rankOf (s.strChars.getD i.val 0) = some r ∧
        encTable[r.toNat]? = t.strOutChars[i.val]?) ∧
      (Uppercase s.strChars → t.strOutChars = s.strChars))

/-- R207, GETTS: it completes with the error `Validate` returns and nothing else written, or with the 48-bit timestamp of
the string in TS_OUT, zero-extended, and ERR = 0. ENT_OUT is not written. -/
def Obligations.GettsExtractsTheTimestamp : Prop :=
  decode 0x00000005 = .instr .getts ∧
  ∀ s : State, ∃ t, exec .getts s = .next t ∧
    (∀ e, validate s = some e → Failed e s t) ∧
    (validate s = none → Succeeded tsOutRegs s t ∧
      (t.get .tsOutHi).toNat * 2 ^ 32 + (t.get .tsOutLo).toNat = paddedSum s.strChars % 2 ^ 128 / 2 ^ 80)

/-- R208, GETENT: it completes with the error `Validate` returns and nothing else written, or with the 10 entropy bytes
of the string in ENT_OUT, most significant first, and ERR = 0. TS_OUT is not written. -/
def Obligations.GetentExtractsTheEntropy : Prop :=
  decode 0x00000006 = .instr .getent ∧
  ∀ s : State, ∃ t, exec .getent s = .next t ∧
    (∀ e, validate s = some e → Failed e s t) ∧
    (validate s = none → Succeeded entOutRegs s t ∧
      (t.get (.entOut 0)).toNat * 2 ^ 64 + (t.get (.entOut 1)).toNat * 2 ^ 32 + (t.get (.entOut 2)).toNat =
        paddedSum s.strChars % 2 ^ 80 * 2 ^ 16)

/-- R156, DECODE: it completes with the error `Validate` returns and nothing else written, or with the timestamp in
TS_OUT, the entropy in ENT_OUT and ERR = 0; equal to GETTS and GETENT together. -/
def Obligations.DecodeIsGettsAndGetentTogether : Prop :=
  decode 0x00000007 = .instr .decode ∧
  ∀ s : State, ∃ t, exec .decode s = .next t ∧
    (∀ e, validate s = some e → Failed e s t) ∧
    (validate s = none → Succeeded (tsOutRegs ++ entOutRegs) s t ∧
      (t.get .tsOutHi).toNat * 2 ^ 32 + (t.get .tsOutLo).toNat = paddedSum s.strChars % 2 ^ 128 / 2 ^ 80 ∧
      (t.get (.entOut 0)).toNat * 2 ^ 64 + (t.get (.entOut 1)).toNat * 2 ^ 32 + (t.get (.entOut 2)).toNat =
        paddedSum s.strChars % 2 ^ 80 * 2 ^ 16) ∧
    ∃ u, exec .getts s = .next u ∧ exec .getent u = .next t

/-! ### Frames -/

/-- What GENERATE, RANDOM and PARSE leave unchanged, whether they succeed or fail: every register but STR_OUT and
STATUS.ERR, the host's plan and the values read; GENERATE and PARSE take no draw (43_facade.md R200, R202, R203,
R205). -/
def Obligations.StringWritingCommandsFrame : Prop :=
  ∀ (i : Instr) (s t : State), i = .generate ∨ i = .random ∨ i = .parse → exec i s = .next t →
    ChangedOnly strOutRegs s t ∧ t.host = s.host ∧ t.reads = s.reads ∧
    (i ≠ .random → t.draws = s.draws ∧ t.drawCount = s.drawCount) ∧
    (i = .random → t.draws = s.draws.tail ∧ t.drawCount = s.drawCount + 1)

/-- What GETTS, GETENT and DECODE leave unchanged, whether they succeed or fail: GETTS every register but TS_OUT, GETENT
every register but ENT_OUT, DECODE every register but those, each besides STATUS.ERR (43_facade.md R207, R208,
41_packer.md R156). -/
def Obligations.DecodingCommandsFrame : Prop :=
  ∀ s t : State,
    (exec .getts s = .next t → ChangedOnly tsOutRegs s t ∧ SameOutside s t) ∧
    (exec .getent s = .next t → ChangedOnly entOutRegs s t ∧ SameOutside s t) ∧
    (exec .decode s = .next t → ChangedOnly (tsOutRegs ++ entOutRegs) s t ∧ SameOutside s t)

/-- What ENCSYM and DECSYM leave unchanged, whether they succeed or fail: every register but SYM_OUT and STATUS.ERR; and
SYM_OUT's hardwired bits stay 0 (40_alphabet.md R134, R135; 10_state.md R43). -/
def Obligations.LookupCommandsFrame : Prop :=
  ∀ (i : Instr) (s t : State), ((∃ r, i = .encsym r) ∨ ∃ c, i = .decsym c) → exec i s = .next t →
    ChangedOnly [.symOut] s t ∧ SameOutside s t ∧
    ((s.get .symOut).extractLsb' 8 24 = 0 → (t.get .symOut).extractLsb' 8 24 = 0)

/-- What ISVALID leaves unchanged: every register but STATUS, and of STATUS every bit but ERR and VALID
(42_validator.md R182). -/
def Obligations.IsvalidFrame : Prop :=
  ∀ s t : State, exec .isvalid s = .next t →
    (∀ r, r ≠ .status → t.get r = s.get r) ∧ (t.get .status) &&& ~~~0x10F = (s.get .status) &&& ~~~0x10F ∧
    SameOutside s t

/-! ### Rules of the whole machine -/

/-- R45's VALID: it keeps its value across every command other than ISVALID. Of all steps, only ISVALID's and the reset
input's change it (60_exceptions.md R255 "No command clears or sets STATUS.VALID except ISVALID"). -/
def Obligations.OnlyIsvalidAndResetChangeValid : Prop :=
  (∀ (i : Instr) (s t : State), i ≠ .isvalid → exec i s = .next t → t.valid = s.valid) ∧
  (∀ s t : State, step s = .next t → t.valid ≠ s.valid →
    (∃ rest, s.host = .write 0x00 32 0x00000004 :: rest) ∨ ∃ rest, s.host = .assertReset :: rest)

/-- No command changes an operand register or CMD, and no command but RANDOM takes a draw (60_exceptions.md R251 "the
operand registers, which no command changes"; 10_state.md R33, R44; 43_facade.md R203). -/
def Obligations.NoCommandWritesAnOperand : Prop :=
  ∀ (i : Instr) (s t : State), exec i s = .next t →
    (∀ r : Reg, r.writable = true → t.get r = s.get r) ∧ (i ≠ .random → t.draws = s.draws)

/-- R252: each of the eight strict commands either succeeds with ERR = 0, its whole result in its result registers and no
other register but STATUS.ERR changed, or fails with one non-zero code and leaves every register but STATUS.ERR as it
was. ISVALID, the permissive query, ends with ERR = 0 and its result in VALID. RANDOM's draws are taken either way
(43_facade.md R203). -/
def Obligations.StrictCommandsWriteAllOrNothing : Prop :=
  (∀ (i : Instr) (s : State), i ≠ .isvalid → ∃ t, exec i s = .next t ∧
    ((t.err = 0 ∧ WholeResult i s t ∧ ChangedOnly (resultRegs i) s t) ∨
      (t.err ≠ 0 ∧ (∃ e : ErrorKind, t.err = e.code) ∧ ChangedOnly [] s t))) ∧
  ∀ s : State, ∃ t, exec .isvalid s = .next t ∧ t.err = 0 ∧ WholeResult .isvalid s t

/-- Which errors each command can raise (60_exceptions.md R250 "raised by", R253): the eight strict commands end with
ERR = 0 or one of the codes the table gives them, ISVALID always with 0, and a word that selects no command with 6. -/
def Obligations.EachCommandRaisesOnlyItsErrors : Prop :=
  (∀ (i : Instr) (s t : State), exec i s = .next t →
    t.err.toNat ∈ match i with
      | .generate => [0, 1, 2, 3]
      | .random => [0, 1, 2, 5]
      | .parse => [0, 2, 3, 4]
      | .isvalid => [0]
      | .getts => [0, 2, 3, 4]
      | .getent => [0, 2, 3, 4]
      | .decode => [0, 2, 3, 4]
      | .encsym _ => [0, 1]
      | .decsym _ => [0, 4]) ∧
  ∀ (w : Word) (s t : State), (∀ i, decode w ≠ .instr i) → execWord w s = .next t → t.err = 6

/-- Every command is a function of its inputs, as 43_facade.md R209 derives it. From two states that agree on the operand
registers the command reads, and, for RANDOM, on the next pair of draws, a command leaves the same ERR, and each result
register either takes the same value in both or is left alone in both; ISVALID leaves the same VALID. -/
def Obligations.CommandsAreFunctionsOfTheirOperands : Prop :=
  ∀ (i : Instr) (s1 s2 : State), (∀ r ∈ operandRegs i, s1.get r = s2.get r) →
    (i = .random → ∃ d ds1 ds2, s1.draws = d :: ds1 ∧ s2.draws = d :: ds2) →
    ∃ t1 t2, exec i s1 = .next t1 ∧ exec i s2 = .next t2 ∧ t1.err = t2.err ∧
      ((∀ r ∈ resultRegs i, t1.get r = t2.get r) ∨
        ∀ r ∈ resultRegs i, t1.get r = s1.get r ∧ t2.get r = s2.get r) ∧
      (i = .isvalid → t1.valid = t2.valid)

/-- A command other than RANDOM executed a second time on what it left writes the same results (20_memory.md R73 "the
second writes the same results for every command but RANDOM"). -/
def Obligations.RepeatedCommandWritesTheSame : Prop :=
  ∀ (i : Instr) (s t : State), i ≠ .random → exec i s = .next t → exec i t = .next t

/-- Every step keeps the invariant: reserved and hardwired bits stay 0 and STATUS.ERR stays one of 0..6 (10_state.md R34,
R40 to R43, R45). -/
def Obligations.StepKeepsTheInvariant : Prop :=
  ∀ s t : State, s.Inv → step s = .next t → t.Inv

/-- The state after reset meets the invariant (10_state.md R49). -/
def Obligations.ResetMeetsTheInvariant : Prop := State.reset.Inv

/-- A host that makes only admitted accesses is never faulted, however long it runs and whatever it writes, and stays
such a host (20_memory.md R72, 70_reset_and_hazards.md R285). -/
def Obligations.DisciplinedHostNeverFaults : Prop :=
  ∀ (s : State) (n : Nat), s.HostDisciplined → ∃ t, Sys2Proof.core.run n s = .next t ∧ t.HostDisciplined

/-! ### Laws across commands -/

/-- Validity is exactly the precondition of decoding, as 42_validator.md R183 derives it. -/
def Obligations.ValidityIsThePreconditionOfDecoding : Prop :=
  ∀ (i : Instr) (s : State), i = .parse ∨ i = .getts ∨ i = .getent ∨ i = .decode →
    ∃ t u, exec i s = .next t ∧ exec .isvalid s = .next u ∧
      (validate s = none → t.err = 0 ∧ u.valid = true) ∧
      (∀ e, validate s = some e → t.err = e.code ∧ u.valid = false)

/-- What validity depends on, as 42_validator.md R184 derives it: on no character where LEN is not 26, and where it is,
only on which of the 26 characters are mapped; so not on case. -/
def Obligations.ValidityDependsOnMembershipOnly : Prop :=
  ∀ s1 s2 : State, s1.get .strCtrl = s2.get .strCtrl →
    ((s1.get .strCtrl).toNat % 2 ^ 16 ≠ 26 → validate s1 = validate s2) ∧
    ((∀ i : Fin 26, (rankOf (s1.strChars.getD i.val 0)).isSome = (rankOf (s2.strChars.getD i.val 0)).isSome) →
      validate s1 = validate s2) ∧
    ((∀ i : Fin 26, let a := s1.strChars.getD i.val 0
        let b := s2.strChars.getD i.val 0
        a = b ∨ (0x41 ≤ a.toNat ∧ a.toNat ≤ 0x5A ∧ b = a + 0x20) ∨ (0x41 ≤ b.toNat ∧ b.toNat ≤ 0x5A ∧ a = b + 0x20)) →
      validate s1 = validate s2)

/-- The strings GENERATE and RANDOM write, as 43_facade.md R201 derives it: 26 characters of the uppercase alphabet, the
first of them `0`..`7`. -/
def Obligations.GeneratedStringsAreCanonical : Prop :=
  ∀ (i : Instr) (s t : State), i = .generate ∨ i = .random → exec i s = .next t → t.err = 0 →
    t.strOutChars.length = 26 ∧
    (∀ c ∈ t.strOutChars, (0x30 ≤ c.toNat ∧ c.toNat ≤ 0x39) ∨ (0x41 ≤ c.toNat ∧ c.toNat ≤ 0x48) ∨ c = 0x4A ∨
      c = 0x4B ∨ c = 0x4D ∨ c = 0x4E ∨ (0x50 ≤ c.toNat ∧ c.toNat ≤ 0x54) ∨ (0x56 ≤ c.toNat ∧ c.toNat ≤ 0x5A)) ∧
    ∃ c, t.strOutChars.head? = some c ∧ 0x30 ≤ c.toNat ∧ c.toNat ≤ 0x37

/-- Strings RANDOM writes are ordered as its clock draws, as 43_facade.md R204 derives it: whatever the entropy, an
earlier clock gives a smaller string. -/
def Obligations.RandomStringsSortByClock : Prop :=
  ∀ (s1 s2 t1 t2 : State) (d1 d2 : Draw) (ds1 ds2 : List Draw), s1.draws = d1 :: ds1 → s2.draws = d2 :: ds2 →
    exec .random s1 = .next t1 → exec .random s2 = .next t2 → t1.err = 0 → t2.err = 0 →
    d1.clock.toNat < d2.clock.toNat → t1.strOutChars < t2.strOutChars

/-- PARSE's output, as 43_facade.md R206 derives it: it is valid, uppercase and has its input's value; it is its own
fold, so PARSE of it returns it; and it is `Encode` of its decoded fields exactly where the first rank is 0..7. -/
def Obligations.ParseOutputIsValidAndStable : Prop :=
  ∀ s t : State, exec .parse s = .next t → validate s = none →
    ValidString t.strOutChars ∧ Uppercase t.strOutChars ∧
    paddedOf t.strOutChars = paddedOf s.strChars ∧
    (∀ u v : State, u.strChars = t.strOutChars → validate u = none → exec .parse u = .next v →
      v.strOutChars = t.strOutChars) ∧
    (t.strOutChars = encodeStr (timestampOf s.strChars) (entropyOf s.strChars) ↔ FirstRankBelow8 s.strChars)

/-- Extract then regenerate, as 43_facade.md R210 derives it: GETTS and GETENT of a valid string whose first rank is 0..7,
their results put into GENERATE's operands with PRESENT = 1 and LEN = 10, give the string's fold. -/
def Obligations.RegenerateGivesTheFold : Prop :=
  ∀ s t u v : State, validate s = none → FirstRankBelow8 s.strChars →
    exec .getts s = .next t → exec .getent t = .next u →
    v.get .tsInLo = u.get .tsOutLo → v.get .tsInHi = u.get .tsOutHi →
    (∀ k, v.get (.entIn k) = u.get (.entOut k)) → v.get .entCtrl = 0x8000000A →
    ∃ w, exec .generate v = .next w ∧ w.err = 0 ∧ w.strOutChars = s.strChars.map fold

/-- What commands do straight after reset, as 70_reset_and_hazards.md R282 derives it: GENERATE, PARSE, GETTS, GETENT and
DECODE fail with MISSING_INPUT, ISVALID gives VALID = 0, and ENCSYM and DECSYM work at once. -/
def Obligations.CommandsRightAfterReset : Prop :=
  (∀ i : Instr, i = .generate ∨ i = .parse ∨ i = .getts ∨ i = .getent ∨ i = .decode →
    ∃ t, exec i State.reset = .next t ∧ Failed .missingInput State.reset t) ∧
  (∃ t, exec .isvalid State.reset = .next t ∧ t.err = 0 ∧ t.valid = false) ∧
  (∀ rank, rank ≤ 31 → ∃ t, exec (.encsym rank) State.reset = .next t ∧ t.err = 0) ∧
  (∀ char, (rankOf char).isSome → ∃ t, exec (.decsym char) State.reset = .next t ∧ t.err = 0)
end

