-- ==== Sys2Proof/Laws/Alphabet.lean ====
section
/-! SUPPORT. What the two tables say (40_alphabet.md R130 to R133, R136). The facts over all ranks or all codes are
finite; each is decided once here and cited afterwards. -/

namespace Sys2Proof.Machine

/-- DEC_TABLE undoes ENC_TABLE. -/
@[simp] theorem rankOf_sym (r : Rank) : rankOf (sym r) = some r := by
  have h : ∀ r : Fin 32, rankOf (sym (BitVec.ofFin r)) = some (BitVec.ofFin r) := by decide +kernel
  exact h r.toFin

@[simp] theorem rankOfValid_sym (r : Rank) : rankOfValid (sym r) = r := by simp [rankOfValid]

@[simp] theorem fold_sym (r : Rank) : fold (sym r) = sym r := by simp [fold]

/-- Folding keeps the rank. -/
@[simp] theorem rankOfValid_fold (c : Byte) : rankOfValid (fold c) = rankOfValid c := by simp [fold]

@[simp] theorem fold_fold (c : Byte) : fold (fold c) = fold c := by simp [fold]

theorem rankOf_fold (c : Byte) : rankOf (fold c) = some (rankOfValid c) := by simp [fold]

theorem rankOfValid_of_some {c : Byte} {r : Rank} (h : rankOf c = some r) : rankOfValid c = r := by
  simp [rankOfValid, h]

theorem fold_of_some {c : Byte} {r : Rank} (h : rankOf c = some r) : fold c = sym r := by
  simp [fold, rankOfValid_of_some h]

theorem encTable_length : encTable.length = 32 := by decide

theorem sym_eq_getElem (r : Rank) : sym r = encTable[r.toNat]'(by have := encTable_length; omega) := by
  simp [sym, encTable_length, r.isLt]

/-- The symbols are the table's entries. -/
theorem mem_encTable_iff (c : Byte) : c ∈ encTable ↔ ∃ r : Rank, c = sym r := by
  constructor
  · intro h
    obtain ⟨i, hi, rfl⟩ := List.getElem_of_mem h
    rw [encTable_length] at hi
    exact ⟨BitVec.ofNat 5 i, by rw [sym_eq_getElem]; congr 1; simp; omega⟩
  · rintro ⟨r, rfl⟩
    rw [sym_eq_getElem]
    exact List.getElem_mem _

theorem sym_mem (r : Rank) : sym r ∈ encTable := (mem_encTable_iff _).mpr ⟨r, rfl⟩

/-- An uppercase symbol or a digit folds to itself. -/
theorem fold_of_mem {c : Byte} (h : c ∈ encTable) : fold c = c := by
  obtain ⟨r, rfl⟩ := (mem_encTable_iff c).mp h
  simp

theorem rankOf_of_mem {c : Byte} (h : c ∈ encTable) : rankOf c = some (rankOfValid c) := by
  obtain ⟨r, rfl⟩ := (mem_encTable_iff c).mp h
  simp

theorem sym_inj {r r' : Rank} (h : sym r = sym r') : r = r' := by
  have := congrArg rankOf h
  simpa using this

/-- ENC_TABLE is strictly increasing (R133). -/
theorem sym_lt_iff (r r' : Rank) : sym r < sym r' ↔ r < r' := by
  have h : ∀ a b : Fin 32, sym (BitVec.ofFin a) < sym (BitVec.ofFin b) ↔ a < b := by
    decide +kernel
  exact h r.toFin r'.toFin

/-- What DEC_TABLE maps and to what, as R131 says it. -/
theorem rankOf_eq_some_iff (c : Byte) (r : Rank) :
    rankOf c = some r ↔ c = sym r ∨ (0x41 ≤ (sym r).toNat ∧ (sym r).toNat ≤ 0x5A ∧ c = sym r + 0x20) := by
  have h : ∀ (c : Fin 256) (r : Fin 32), rankOf (BitVec.ofFin c) = some (BitVec.ofFin r) ↔
      BitVec.ofFin c = sym (BitVec.ofFin r) ∨ (0x41 ≤ (sym (BitVec.ofFin r)).toNat ∧
        (sym (BitVec.ofFin r)).toNat ≤ 0x5A ∧ BitVec.ofFin c = sym (BitVec.ofFin r) + 0x20) := by
    decide +kernel
  exact h c.toFin r.toFin

end Sys2Proof.Machine
end

