-- ==== Sys2Proof/Laws/Numerals.lean ====
section
/-! SUPPORT. Numbers written in a base, most significant digit first: the arithmetic behind the byte order of
00_scope.md R14 and the slicing of 41_packer.md R152 and R154, said once for every base. -/

namespace Sys2Proof.Laws

/-- The number a list of digits stands for in base `B`, the first digit the most significant. -/
def num (B : Nat) (l : List Nat) : Nat := l.foldl (fun n d => n * B + d) 0

theorem foldl_digits (B : Nat) (l : List Nat) (a : Nat) :
    l.foldl (fun n d => n * B + d) a = a * B ^ l.length + num B l := by
  induction l generalizing a with
  | nil => simp [num]
  | cons d l ih =>
    have h0 : num B (d :: l) = d * B ^ l.length + num B l := by
      rw [num, List.foldl_cons, ih]; simp
    rw [List.foldl_cons, ih, h0, List.length_cons]
    ring

@[simp] theorem num_nil (B : Nat) : num B [] = 0 := rfl

theorem num_cons (B d : Nat) (l : List Nat) : num B (d :: l) = d * B ^ l.length + num B l := by
  rw [num, List.foldl_cons, foldl_digits]; simp

theorem num_concat (B : Nat) (l : List Nat) (d : Nat) : num B (l ++ [d]) = num B l * B + d := by
  simp [num, List.foldl_append]

theorem num_append (B : Nat) (l m : List Nat) : num B (l ++ m) = num B l * B ^ m.length + num B m := by
  rw [num, List.foldl_append, foldl_digits]; rfl

theorem num_lt {B : Nat} {l : List Nat} (h : ∀ d ∈ l, d < B) : num B l < B ^ l.length := by
  induction l with
  | nil => simp
  | cons d l ih =>
    have hd : d < B := h d (by simp)
    have hl := ih fun x hx => h x (by simp [hx])
    have : d * B ^ l.length + B ^ l.length ≤ B * B ^ l.length := by
      calc d * B ^ l.length + B ^ l.length = (d + 1) * B ^ l.length := by ring
        _ ≤ B * B ^ l.length := Nat.mul_le_mul_right _ hd
    rw [num_cons, List.length_cons, pow_succ, Nat.mul_comm _ B]
    omega

/-- A number is the number its own digits stand for. -/
theorem num_digits (B n p : Nat) :
    num B (List.ofFn fun i : Fin n => p / B ^ (n - 1 - i.val) % B) = p % B ^ n := by
  induction n generalizing p with
  | zero => simp [Nat.mod_one]
  | succ n ih =>
    rw [List.ofFn_succ_last]
    have hinit : (List.ofFn fun i : Fin n => p / B ^ (n + 1 - 1 - (Fin.castSucc i).val) % B) =
        List.ofFn fun i : Fin n => p / B / B ^ (n - 1 - i.val) % B := by
      congr 1
      funext i
      rw [Nat.div_div_eq_div_mul, ← pow_succ']
      congr 3
      have := i.isLt
      simp only [Fin.val_castSucc]
      omega
    rw [hinit, num_concat, ih]
    simp only [Fin.val_last, show n + 1 - 1 - n = 0 by omega, pow_zero, Nat.div_one]
    rw [pow_succ', Nat.mod_mul, Nat.add_comm, Nat.mul_comm]

/-- The digits of a number read back: digit `i` of `num B l` is the `i`-th of `l`. -/
theorem digit_num {B : Nat} {l : List Nat} (h : ∀ d ∈ l, d < B) (i : Nat) (hi : i < l.length) :
    num B l / B ^ (l.length - 1 - i) % B = l[i] := by
  induction l generalizing i with
  | nil => simp at hi
  | cons d l ih =>
    have hd : d < B := h d (by simp)
    have hl : ∀ x ∈ l, x < B := fun x hx => h x (by simp [hx])
    have hlt := num_lt hl
    have hB : 0 < B ^ l.length := by omega
    rw [num_cons]
    cases i with
    | zero =>
      simp only [List.length_cons, Nat.add_sub_cancel, Nat.sub_zero, List.getElem_cons_zero]
      rw [Nat.add_comm, Nat.add_mul_div_right _ _ hB, Nat.div_eq_of_lt hlt, Nat.zero_add, Nat.mod_eq_of_lt hd]
    | succ i =>
      simp only [List.length_cons, List.getElem_cons_succ] at hi ⊢
      rw [← ih hl i (by omega), show l.length + 1 - 1 - (i + 1) = l.length - 1 - i by omega]
      have hB0 : 0 < B := by omega
      rw [show d * B ^ l.length + num B l = num B l + B ^ (l.length - 1 - i) * (B * (d * B ^ i)) by
        have : B ^ l.length = B ^ (l.length - 1 - i) * B * B ^ i := by
          rw [← pow_succ, ← pow_add]; congr 1; omega
        rw [this]; ring]
      rw [Nat.add_mul_div_left _ _ (pow_pos hB0 _), Nat.add_mul_mod_self_left]

/-- Digit lists of one length compare as their numbers do. -/
theorem lex_iff_num_lt {B : Nat} {l m : List Nat} (hl : ∀ d ∈ l, d < B) (hm : ∀ d ∈ m, d < B)
    (hlen : l.length = m.length) : l < m ↔ num B l < num B m := by
  induction l generalizing m with
  | nil => cases m with
    | nil => simp
    | cons => simp at hlen
  | cons d l ih => cases m with
    | nil => simp at hlen
    | cons e m =>
      have hlen' : l.length = m.length := by simpa using hlen
      have hl' : ∀ x ∈ l, x < B := fun x hx => hl x (by simp [hx])
      have hm' : ∀ x ∈ m, x < B := fun x hx => hm x (by simp [hx])
      have h1 := num_lt hl'
      have h2 := num_lt hm'
      rw [List.cons_lt_cons_iff, ih hl' hm' hlen', num_cons, num_cons, hlen']
      rw [hlen'] at h1
      constructor
      · rintro (h | ⟨rfl, h⟩)
        · have : d * B ^ m.length + B ^ m.length ≤ e * B ^ m.length := by
            calc d * B ^ m.length + B ^ m.length = (d + 1) * B ^ m.length := by ring
              _ ≤ e * B ^ m.length := Nat.mul_le_mul_right _ h
          omega
        · omega
      · intro h
        rcases Nat.lt_trichotomy d e with hde | hde | hde
        · exact .inl hde
        · exact .inr ⟨hde, by subst hde; omega⟩
        · have : e * B ^ m.length + B ^ m.length ≤ d * B ^ m.length := by
            calc e * B ^ m.length + B ^ m.length = (e + 1) * B ^ m.length := by ring
              _ ≤ d * B ^ m.length := Nat.mul_le_mul_right _ hde
          omega

/-- Digit lists of one length are equal when their numbers are. -/
theorem num_inj {B : Nat} {l m : List Nat} (hl : ∀ d ∈ l, d < B) (hm : ∀ d ∈ m, d < B)
    (hlen : l.length = m.length) (h : num B l = num B m) : l = m := by
  refine List.ext_getElem hlen fun i h1 h2 => ?_
  rw [← digit_num hl i h1, ← digit_num hm i h2, h, hlen]

/-- The number as the sum of its digits' weights. -/
theorem num_eq_sum (B : Nat) (l : List Nat) :
    num B l = ∑ i : Fin l.length, l[i] * B ^ (l.length - 1 - i.val) := by
  induction l with
  | nil => simp
  | cons d l ih =>
    rw [num_cons, ih]
    simp only [List.length_cons]
    rw [Fin.sum_univ_succ]
    simp only [Fin.getElem_fin, Fin.val_zero, List.getElem_cons_zero, Fin.val_succ, List.getElem_cons_succ,
      Nat.add_sub_cancel, Nat.sub_zero]
    congr 1
    refine Finset.sum_congr rfl fun i _ => ?_
    congr 2
    omega

end Sys2Proof.Laws
end

