-- ==== Sys2Proof/Laws/State.lean ====
section
/-! SUPPORT. What each update of a state leaves in each field and in each register. Every update but `takeDraw` acts
on the register file alone, and `get` after an update is said once for each update, so that no later proof unfolds
one. -/

namespace Sys2Proof.Machine

/-! ### The register primitives -/

theorem RegFile.get_set (f : RegFile) (r r' : Reg) (v : Word) :
    (f.set r v).get r' = if r' = r then v else f.get r' := by
  cases r <;> cases r' <;> simp [RegFile.set, RegFile.get, Vector.getElem_set, Fin.ext_iff, eq_comm]

@[simp] theorem State.get_set (s : State) (r r' : Reg) (v : Word) :
    (s.set r v).get r' = if r' = r then v else s.get r' := RegFile.get_set s.regs r r' v

@[simp] theorem State.set_host (s : State) (r : Reg) (v : Word) : (s.set r v).host = s.host := rfl
@[simp] theorem State.set_reads (s : State) (r : Reg) (v : Word) : (s.set r v).reads = s.reads := rfl
@[simp] theorem State.set_draws (s : State) (r : Reg) (v : Word) : (s.set r v).draws = s.draws := rfl
@[simp] theorem State.set_drawCount (s : State) (r : Reg) (v : Word) : (s.set r v).drawCount = s.drawCount := rfl

/-- Two register files that agree on every register are equal. -/
theorem RegFile.ext_get {f g : RegFile} (h : ∀ r, f.get r = g.get r) : f = g := by
  obtain ⟨a1, a2, a3, a4, a5, a6, a7, a8, a9, a10, a11, a12, a13⟩ := f
  obtain ⟨b1, b2, b3, b4, b5, b6, b7, b8, b9, b10, b11, b12, b13⟩ := g
  have group {n : Nat} {v w : Vector Word n} (hv : ∀ k : Fin n, v[k] = w[k]) : v = w :=
    Vector.ext fun i hi => hv ⟨i, hi⟩
  have e1 := h .cmd
  have e2 := h .status
  have e3 := h .tsInLo
  have e4 := h .tsInHi
  have e5 := h .entCtrl
  have e6 := group fun k => h (.entIn k)
  have e7 := h .strCtrl
  have e8 := group fun k => h (.strIn k)
  have e9 := h .tsOutLo
  have e10 := h .tsOutHi
  have e11 := group fun k => h (.entOut k)
  have e12 := group fun k => h (.strOut k)
  have e13 := h .symOut
  simp only [RegFile.get] at *
  subst e1 e2 e3 e4 e5 e6 e7 e8 e9 e10 e11 e12 e13
  rfl

/-- Two states that agree on every register and on the model's own fields are equal. -/
theorem State.ext_get {s t : State} (h : ∀ r, s.get r = t.get r) (hh : s.host = t.host) (hr : s.reads = t.reads)
    (hd : s.draws = t.draws) (hc : s.drawCount = t.drawCount) : s = t := by
  obtain ⟨f, _, _, _, _⟩ := s
  obtain ⟨g, _, _, _, _⟩ := t
  have : f = g := RegFile.ext_get h
  simp_all

/-! ### STATUS -/

/-- Bit `i` of a STATUS word with ERR written. -/
theorem getLsbD_statusWithErr (w : Word) (c : BitVec 4) (i : Nat) :
    (statusWithErr w c).getLsbD i = if i < 4 then c.getLsbD i else w.getLsbD i := by
  unfold statusWithErr
  rw [BitVec.getLsbD_append]
  by_cases h : i < 4
  · simp [h]
  · simp only [h, if_false, BitVec.getLsbD_extractLsb', show 4 + (i - 4) = i by omega]
    by_cases h' : i < 32
    · simp [show i - 4 < 28 by omega]
    · simp [BitVec.getLsbD_of_ge w i (by omega)]

/-- Bit `i` of a STATUS word with VALID written. -/
theorem getLsbD_statusWithValid (w : Word) (v : Bool) (i : Nat) :
    (statusWithValid w v).getLsbD i = if i = 8 then v else w.getLsbD i := by
  unfold statusWithValid
  rw [BitVec.getLsbD_append, BitVec.getLsbD_append]
  rcases Nat.lt_trichotomy i 8 with h | h | h
  · simp [h, show i ≠ 8 by omega]
  · subst h; simp
  · simp only [show ¬ i < 8 by omega, show ¬ i - 8 < 1 by omega, show i ≠ 8 by omega, decide_false,
      if_false, BitVec.getLsbD_extractLsb', show 9 + (i - 8 - 1) = i by omega]
    by_cases h' : i < 32
    · simp [show i - 8 - 1 < 23 by omega]
    · simp [BitVec.getLsbD_of_ge w i (by omega)]

@[simp] theorem statusErr_withErr (w : Word) (c : BitVec 4) : statusErr (statusWithErr w c) = c := by
  ext i hi
  simp [statusErr, getLsbD_statusWithErr, hi]

@[simp] theorem statusErr_withValid (w : Word) (v : Bool) : statusErr (statusWithValid w v) = statusErr w := by
  ext i hi
  simp [statusErr, getLsbD_statusWithValid, show i ≠ 8 by omega]

@[simp] theorem statusValid_withErr (w : Word) (c : BitVec 4) : statusValid (statusWithErr w c) = statusValid w := by
  simp only [statusValid, getLsbD_statusWithErr]; rfl

@[simp] theorem statusValid_withValid (w : Word) (v : Bool) : statusValid (statusWithValid w v) = v := by
  simp only [statusValid, getLsbD_statusWithValid]; rfl

/-- Writing ERR leaves bits 31:4 as they were. -/
@[simp] theorem upper_withErr (w : Word) (c : BitVec 4) :
    (statusWithErr w c).extractLsb' 4 28 = w.extractLsb' 4 28 := by
  ext i hi
  simp [getLsbD_statusWithErr]

/-- Of two writes of ERR the second counts. -/
@[simp] theorem statusWithErr_statusWithErr (w : Word) (a b : BitVec 4) :
    statusWithErr (statusWithErr w a) b = statusWithErr w b := by
  apply BitVec.eq_of_getLsbD_eq
  intro i hi
  simp only [getLsbD_statusWithErr]
  split <;> rfl

/-- Writing VALID leaves bits 31:9 and 7:0 as they were. -/
theorem outside_withValid (w : Word) (v : Bool) :
    (statusWithValid w v).extractLsb' 9 23 = w.extractLsb' 9 23 ∧
      (statusWithValid w v).extractLsb' 0 8 = w.extractLsb' 0 8 := by
  constructor <;> ext i hi
  · simp [getLsbD_statusWithValid, show 9 + i ≠ 8 by omega]
  · simp [getLsbD_statusWithValid, show i ≠ 8 by omega]

theorem State.get_setErr (s : State) (c : BitVec 4) (r : Reg) :
    (s.setErr c).get r = if r = .status then statusWithErr (s.get .status) c else s.get r := by
  simp [State.setErr]

theorem State.get_setValid (s : State) (v : Bool) (r : Reg) :
    (s.setValid v).get r = if r = .status then statusWithValid (s.get .status) v else s.get r := by
  simp [State.setValid]

@[simp] theorem State.err_setErr (s : State) (c : BitVec 4) : (s.setErr c).err = c := by
  simp [State.err, State.setErr]

@[simp] theorem State.valid_setErr (s : State) (c : BitVec 4) : (s.setErr c).valid = s.valid := by
  simp [State.valid, State.setErr]

@[simp] theorem State.err_setValid (s : State) (v : Bool) : (s.setValid v).err = s.err := by
  simp [State.err, State.setValid]

@[simp] theorem State.valid_setValid (s : State) (v : Bool) : (s.setValid v).valid = v := by
  simp [State.valid, State.setValid]

@[simp] theorem State.setErr_host (s : State) (c : BitVec 4) : (s.setErr c).host = s.host := rfl
@[simp] theorem State.setErr_reads (s : State) (c : BitVec 4) : (s.setErr c).reads = s.reads := rfl
@[simp] theorem State.setErr_draws (s : State) (c : BitVec 4) : (s.setErr c).draws = s.draws := rfl
@[simp] theorem State.setErr_drawCount (s : State) (c : BitVec 4) : (s.setErr c).drawCount = s.drawCount := rfl
@[simp] theorem State.setValid_host (s : State) (v : Bool) : (s.setValid v).host = s.host := rfl
@[simp] theorem State.setValid_reads (s : State) (v : Bool) : (s.setValid v).reads = s.reads := rfl
@[simp] theorem State.setValid_draws (s : State) (v : Bool) : (s.setValid v).draws = s.draws := rfl
@[simp] theorem State.setValid_drawCount (s : State) (v : Bool) : (s.setValid v).drawCount = s.drawCount := rfl

/-! ### Results -/

theorem State.get_writeTs (s : State) (t : BitVec 48) (r : Reg) :
    (s.writeTs t).get r =
      if r = .tsOutHi then (t.extractLsb' 32 16).setWidth 32
      else if r = .tsOutLo then t.extractLsb' 0 32 else s.get r := by
  simp [State.writeTs]

theorem State.get_writeEnt (s : State) (e : List Byte) (r : Reg) :
    (s.writeEnt e).get r = match r with
      | .entOut k => packedWord e k.val
      | r => s.get r := by
  cases r with
  | entOut k => fin_cases k <;> simp [State.writeEnt]
  | _ => simp [State.writeEnt]

theorem State.get_writeStr (s : State) (b : List Byte) (r : Reg) :
    (s.writeStr b).get r = match r with
      | .strOut k => packedWord b k.val
      | r => s.get r := by
  cases r <;> simp [State.writeStr, State.get, RegFile.get]

@[simp] theorem State.writeTs_host (s : State) (t : BitVec 48) : (s.writeTs t).host = s.host := rfl
@[simp] theorem State.writeTs_reads (s : State) (t : BitVec 48) : (s.writeTs t).reads = s.reads := rfl
@[simp] theorem State.writeTs_draws (s : State) (t : BitVec 48) : (s.writeTs t).draws = s.draws := rfl
@[simp] theorem State.writeTs_drawCount (s : State) (t : BitVec 48) : (s.writeTs t).drawCount = s.drawCount := rfl
@[simp] theorem State.writeEnt_host (s : State) (e : List Byte) : (s.writeEnt e).host = s.host := rfl
@[simp] theorem State.writeEnt_reads (s : State) (e : List Byte) : (s.writeEnt e).reads = s.reads := rfl
@[simp] theorem State.writeEnt_draws (s : State) (e : List Byte) : (s.writeEnt e).draws = s.draws := rfl
@[simp] theorem State.writeEnt_drawCount (s : State) (e : List Byte) : (s.writeEnt e).drawCount = s.drawCount := rfl
@[simp] theorem State.writeStr_host (s : State) (b : List Byte) : (s.writeStr b).host = s.host := rfl
@[simp] theorem State.writeStr_reads (s : State) (b : List Byte) : (s.writeStr b).reads = s.reads := rfl
@[simp] theorem State.writeStr_draws (s : State) (b : List Byte) : (s.writeStr b).draws = s.draws := rfl
@[simp] theorem State.writeStr_drawCount (s : State) (b : List Byte) : (s.writeStr b).drawCount = s.drawCount := rfl

/-! ### Draws and the rest -/

@[simp] theorem takeDraw_get (s : State) (r : Reg) : (takeDraw s).get r = s.get r := rfl
@[simp] theorem takeDraw_regs (s : State) : (takeDraw s).regs = s.regs := rfl
@[simp] theorem takeDraw_host (s : State) : (takeDraw s).host = s.host := rfl
@[simp] theorem takeDraw_reads (s : State) : (takeDraw s).reads = s.reads := rfl
@[simp] theorem takeDraw_draws (s : State) : (takeDraw s).draws = s.draws.tail := rfl
@[simp] theorem takeDraw_drawCount (s : State) : (takeDraw s).drawCount = s.drawCount + 1 := rfl

theorem nextDraw_cons {s : State} {d : Draw} {ds : List Draw} (h : s.draws = d :: ds) : nextDraw s = d := by
  simp [nextDraw, h]

/-- Changing the model's own fields changes no register. -/
@[simp] theorem State.get_with_outside (s : State) (h : List HostAction) (rd : List Word) (d : List Draw) (n : Nat)
    (r : Reg) : State.get { regs := s.regs, host := h, reads := rd, draws := d, drawCount := n } r = s.get r := rfl

/-- Every register is 0 after reset (10_state.md R49). -/
theorem RegFile.get_reset (r : Reg) : RegFile.reset.get r = 0 := by
  cases r <;> simp [RegFile.reset, RegFile.get]

end Sys2Proof.Machine
end

