-- ==== Sys2Proof/Laws/Packing.lean ====
section
/-! SUPPORT. The packer's functions as numbers (41_packer.md R150 to R158): what `be`, `group`, `encodeStr`,
`unslice`, `timestampOf` and `entropyOf` are in Nat arithmetic, and bytes packed into registers (10_state.md R37,
R39). -/

namespace Sys2Proof.Machine

open Sys2Proof.Laws (num)

/-! ### Bytes -/

theorem be_eq_num (b : List Byte) : be b = num 256 (b.map BitVec.toNat) := by
  simp [be, num, List.foldl_map]

theorem bytes_lt (b : List Byte) : ∀ d ∈ b.map BitVec.toNat, d < 256 := by
  intro d hd
  obtain ⟨x, -, rfl⟩ := List.mem_map.mp hd
  exact x.isLt

theorem be_lt (b : List Byte) : be b < 256 ^ b.length := by
  have h := Laws.num_lt (bytes_lt b)
  rwa [List.length_map, ← be_eq_num] at h

theorem be_lt_of_length_10 {b : List Byte} (h : b.length = 10) : be b < 2 ^ 80 := by
  have := be_lt b
  rw [h] at this
  norm_num at this ⊢
  exact this

/-- Byte `j` of a sequence is digit `j` of its number. -/
theorem be_byte (b : List Byte) (j : Nat) (hj : j < b.length) :
    be b / 256 ^ (b.length - 1 - j) % 256 = b[j].toNat := by
  have h := Laws.digit_num (bytes_lt b) j (by simpa using hj)
  simpa [← be_eq_num] using h

theorem be_inj {b c : List Byte} (hlen : b.length = c.length) (h : be b = be c) : b = c := by
  have := Laws.num_inj (bytes_lt b) (bytes_lt c) (by simpa using hlen) (by rwa [← be_eq_num, ← be_eq_num])
  exact List.map_injective_iff.mpr (fun _ _ => BitVec.eq_of_toNat_eq) this

/-- The 10 bytes cut out of an 80-bit number make that number again. -/
theorem be_ofFn_bytes (f : Fin 10 → Byte) (n : Nat) (hf : ∀ j : Fin 10, (f j).toNat = n / 256 ^ (9 - j.val) % 256) :
    be (List.ofFn f) = n % 2 ^ 80 := by
  rw [be_eq_num, List.map_ofFn]
  have h := Laws.num_digits 256 10 n
  rw [show (BitVec.toNat ∘ f) = fun i : Fin 10 => n / 256 ^ (10 - 1 - i.val) % 256 from funext hf, h]
  norm_num

/-! ### Bytes in registers -/

theorem toNat_append_eq {m n : Nat} (x : BitVec m) (y : BitVec n) : (x ++ y).toNat = x.toNat * 2 ^ n + y.toNat := by
  rw [BitVec.toNat_append, ← Nat.shiftLeft_add_eq_or_of_lt y.isLt, Nat.shiftLeft_eq]

theorem toNat_extract {w : Nat} (x : BitVec w) (lo n : Nat) : (x.extractLsb' lo n).toNat = x.toNat / 2 ^ lo % 2 ^ n := by
  simp [Nat.shiftRight_eq_div_pow]

theorem packedWord_toNat (b : List Byte) (k : Nat) :
    (packedWord b k).toNat = (b.getD (4 * k) 0).toNat * 2 ^ 24 + (b.getD (4 * k + 1) 0).toNat * 2 ^ 16 +
      (b.getD (4 * k + 2) 0).toNat * 2 ^ 8 + (b.getD (4 * k + 3) 0).toNat := by
  unfold packedWord
  rw [toNat_append_eq, toNat_append_eq, toNat_append_eq]
  ring

theorem byteOf_toNat (w : Word) (i : Nat) : (byteOf w i).toNat = w.toNat / 2 ^ (24 - 8 * (i % 4)) % 256 :=
  toNat_extract w _ 8

/-- Reading byte `i` of the register that holds it gives it back; a position the sequence does not have is 0. -/
theorem byteOf_packedWord (b : List Byte) (i : Nat) : byteOf (packedWord b (i / 4)) i = b.getD i 0 := by
  apply BitVec.eq_of_toNat_eq
  rw [byteOf_toNat, packedWord_toNat]
  have h0 := (b.getD (4 * (i / 4)) 0).isLt
  have h1 := (b.getD (4 * (i / 4) + 1) 0).isLt
  have h2 := (b.getD (4 * (i / 4) + 2) 0).isLt
  have h3 := (b.getD (4 * (i / 4) + 3) 0).isLt
  rcases (by omega : i % 4 = 0 ∨ i % 4 = 1 ∨ i % 4 = 2 ∨ i % 4 = 3) with h | h | h | h
  · have e : b.getD i 0 = b.getD (4 * (i / 4)) 0 := by congr 1; omega
    rw [h, e]; omega
  · have e : b.getD i 0 = b.getD (4 * (i / 4) + 1) 0 := by congr 1; omega
    rw [h, e]; omega
  · have e : b.getD i 0 = b.getD (4 * (i / 4) + 2) 0 := by congr 1; omega
    rw [h, e]; omega
  · have e : b.getD i 0 = b.getD (4 * (i / 4) + 3) 0 := by congr 1; omega
    rw [h, e]; omega

/-- The register that holds only two bytes of a sequence is 0 in its low half: STR_OUT6, ENT_OUT2 (10_state.md R41,
R42). -/
theorem packedWord_low_zero (b : List Byte) (k : Nat) (h : b.length ≤ 4 * k + 2) :
    (packedWord b k).extractLsb' 0 16 = 0 := by
  apply BitVec.eq_of_toNat_eq
  rw [toNat_extract, packedWord_toNat]
  have h2 : b.getD (4 * k + 2) 0 = 0 := by simp [List.getD_eq_getElem?_getD, List.getElem?_eq_none (show b.length ≤ 4 * k + 2 by omega)]
  have h3 : b.getD (4 * k + 3) 0 = 0 := by simp [List.getD_eq_getElem?_getD, List.getElem?_eq_none (show b.length ≤ 4 * k + 3 by omega)]
  rw [h2, h3]
  simp
  omega

/-! ### Encode -/

theorem padValue_toNat (v : BitVec 128) : (padValue v).toNat = v.toNat := by
  rw [padValue, BitVec.toNat_setWidth]
  exact Nat.mod_eq_of_lt (by have := v.isLt; omega)

theorem packValue_toNat (t : BitVec 48) {e : List Byte} (he : e.length = 10) :
    (packValue t e).toNat = t.toNat * 2 ^ 80 + be e := by
  unfold packValue
  rw [toNat_append_eq, BitVec.toNat_ofNat, Nat.mod_eq_of_lt (be_lt_of_length_10 he)]

theorem group_toNat (p : BitVec 130) (i : Nat) : (group p i).toNat = p.toNat / 2 ^ (125 - 5 * i) % 32 :=
  toNat_extract p _ 5

@[simp] theorem encodeStr_length (t : BitVec 48) (e : List Byte) : (encodeStr t e).length = 26 := by
  simp [encodeStr]

/-- `Encode` in Nat arithmetic (R153): character `i` is the symbol of digit `i` of `t * 2^80 + be(e)` in base 32. -/
theorem encodeStr_getElem (t : BitVec 48) {e : List Byte} (he : e.length = 10) (i : Nat) (hi : i < 26) :
    (encodeStr t e)[i]'(by simpa using hi) =
      sym (BitVec.ofNat 5 ((t.toNat * 2 ^ 80 + be e) / 2 ^ (125 - 5 * i) % 32)) := by
  simp only [encodeStr, List.getElem_ofFn]
  congr 1
  apply BitVec.eq_of_toNat_eq
  rw [group_toNat, padValue_toNat, packValue_toNat t he, BitVec.toNat_ofNat]
  omega

/-- The ranks of an encoded string are the groups of its padded value. -/
theorem map_rank_encodeStr (t : BitVec 48) (e : List Byte) :
    (encodeStr t e).map rankOfValid = List.ofFn fun i : Fin 26 => group (padValue (packValue t e)) i.val := by
  rw [encodeStr, List.map_ofFn]
  congr 1
  funext i
  simp

/-! ### Decode -/

theorem ranks_lt (g : List Rank) : ∀ d ∈ g.map BitVec.toNat, d < 32 := by
  intro d hd
  obtain ⟨x, -, rfl⟩ := List.mem_map.mp hd
  exact x.isLt

theorem unslice_toNat {g : List Rank} (hg : g.length = 26) : (unslice g).toNat = num 32 (g.map BitVec.toNat) := by
  have h := Laws.num_lt (ranks_lt g)
  rw [List.length_map, hg] at h
  have e : g.foldl (fun n r => n * 32 + r.toNat) 0 = num 32 (g.map BitVec.toNat) := by simp [num, List.foldl_map]
  rw [unslice, BitVec.toNat_ofNat, e]
  exact Nat.mod_eq_of_lt (by norm_num at h ⊢; exact h)

/-- Slicing and unslicing give the padded value back (R152, R154). -/
theorem unslice_groups (p : BitVec 130) : unslice (List.ofFn fun i : Fin 26 => group p i.val) = p := by
  apply BitVec.eq_of_toNat_eq
  rw [unslice_toNat (by simp), List.map_ofFn]
  have h := Laws.num_digits 32 26 p.toNat
  rw [show (BitVec.toNat ∘ fun i : Fin 26 => group p i.val) = fun i : Fin 26 => p.toNat / 32 ^ (26 - 1 - i.val) % 32 from
    funext fun i => by
      rw [Function.comp, group_toNat, show (32 : Nat) = 2 ^ 5 by norm_num, ← pow_mul]
      congr 3; omega, h]
  exact Nat.mod_eq_of_lt (by have := p.isLt; norm_num at this ⊢; exact this)

/-- Unslicing and slicing give the ranks back (R152, R154). -/
theorem groups_unslice {g : List Rank} (hg : g.length = 26) :
    (List.ofFn fun i : Fin 26 => group (unslice g) i.val) = g := by
  refine List.ext_getElem (by simp [hg]) fun i h1 h2 => ?_
  simp only [List.getElem_ofFn]
  apply BitVec.eq_of_toNat_eq
  have h := Laws.digit_num (ranks_lt g) i (by simpa using h2)
  simp only [List.length_map, hg, List.getElem_map] at h
  rw [group_toNat, unslice_toNat hg, ← h, show (32 : Nat) = 2 ^ 5 by norm_num, ← pow_mul]
  congr 3; omega

/-- Strings of symbols compare as the numbers of their ranks do (40_alphabet.md R133). -/
theorem map_sym_lt_iff (g h : List Rank) : g.map sym < h.map sym ↔ g.map BitVec.toNat < h.map BitVec.toNat := by
  induction g generalizing h with
  | nil => cases h <;> simp
  | cons a g ih => cases h with
    | nil => simp
    | cons b h =>
      simp only [List.map_cons, List.cons_lt_cons_iff, ih, sym_lt_iff]
      rw [BitVec.lt_def]
      constructor
      · rintro (hl | ⟨he, hl⟩)
        · exact .inl hl
        · exact .inr ⟨by rw [sym_inj he], hl⟩
      · rintro (hl | ⟨he, hl⟩)
        · exact .inl hl
        · exact .inr ⟨by rw [BitVec.eq_of_toNat_eq he], hl⟩

theorem paddedOf_toNat {str : List Byte} (h : str.length = 26) :
    (paddedOf str).toNat = num 32 (str.map fun c => (rankOfValid c).toNat) := by
  rw [paddedOf, unslice_toNat (by simpa using h), List.map_map]; rfl

theorem valueOf_toNat (str : List Byte) : (valueOf str).toNat = (paddedOf str).toNat % 2 ^ 128 := by
  rw [valueOf, toNat_extract]; simp

theorem timestampOf_toNat (str : List Byte) : (timestampOf str).toNat = (valueOf str).toNat / 2 ^ 80 := by
  rw [timestampOf, toNat_extract]
  exact Nat.mod_eq_of_lt (by have := (valueOf str).isLt; omega)

@[simp] theorem entropyOf_length (str : List Byte) : (entropyOf str).length = 10 := by simp [entropyOf]

theorem be_entropyOf (str : List Byte) : be (entropyOf str) = (valueOf str).toNat % 2 ^ 80 := by
  refine be_ofFn_bytes _ _ fun j => ?_
  rw [toNat_extract, show (256 : Nat) = 2 ^ 8 by norm_num, ← pow_mul]
  congr 3; omega

/-- The two fields of a value put back together. -/
theorem packValue_of_string (str : List Byte) : packValue (timestampOf str) (entropyOf str) = valueOf str := by
  apply BitVec.eq_of_toNat_eq
  rw [packValue_toNat _ (entropyOf_length str), timestampOf_toNat, be_entropyOf]
  omega

/-- The value of an encoded string is the value that was packed (R150 to R155). -/
theorem valueOf_encodeStr (t : BitVec 48) (e : List Byte) : valueOf (encodeStr t e) = packValue t e := by
  apply BitVec.eq_of_toNat_eq
  rw [valueOf_toNat, paddedOf, map_rank_encodeStr, unslice_groups, padValue_toNat]
  exact Nat.mod_eq_of_lt (packValue t e).isLt

/-- A string's 130-bit value as the sum of R154. -/
theorem paddedOf_eq_sum {str : List Byte} (h : str.length = 26) :
    (paddedOf str).toNat = ∑ i : Fin 26, (rankOfValid (str.getD i.val 0)).toNat * 2 ^ (125 - 5 * i.val) := by
  rw [paddedOf_toNat h, Laws.num_eq_sum]
  have hlen : (str.map fun c => (rankOfValid c).toNat).length = 26 := by simpa using h
  rw [← Equiv.sum_comp (finCongr hlen.symm)]
  refine Finset.sum_congr rfl fun i _ => ?_
  have hi : i.val < str.length := by omega
  simp only [finCongr_apply, Fin.getElem_fin, Fin.val_cast, List.getElem_map, List.getD_eq_getElem?_getD,
    List.getElem?_eq_getElem hi, Option.getD_some, hlen]
  rw [show (32 : Nat) = 2 ^ 5 by norm_num, ← pow_mul]
  congr 2; omega

end Sys2Proof.Machine
end

