-- ==== Sys2Proof/Laws/Commands.lean ====
section
/-! SUPPORT. What the shared operations of the commands do, once each: `raise` and `succeed` (00_scope.md R11), the
result registers read back (10_state.md R40 to R42), `validate` (42_validator.md R180), and what any command leaves of
the state it starts from (`exec_result`). -/

namespace Sys2Proof.Machine

/-! ### `raise` and `succeed` -/

@[simp] theorem err_raise (e : ErrorKind) (s : State) : (raise e s).err = e.code := by simp [raise]
@[simp] theorem err_succeed (s : State) : (succeed s).err = 0 := by simp [succeed]
@[simp] theorem valid_raise (e : ErrorKind) (s : State) : (raise e s).valid = s.valid := by simp [raise]
@[simp] theorem valid_succeed (s : State) : (succeed s).valid = s.valid := by simp [succeed]

theorem get_raise (e : ErrorKind) (s : State) (r : Reg) :
    (raise e s).get r = if r = .status then statusWithErr (s.get .status) e.code else s.get r := State.get_setErr s _ r

theorem get_succeed (s : State) (r : Reg) :
    (succeed s).get r = if r = .status then statusWithErr (s.get .status) 0 else s.get r := State.get_setErr s _ r

@[simp] theorem get_raise_of_ne (e : ErrorKind) (s : State) {r : Reg} (h : r ≠ .status) :
    (raise e s).get r = s.get r := by simp [get_raise, h]

@[simp] theorem get_succeed_of_ne (s : State) {r : Reg} (h : r ≠ .status) : (succeed s).get r = s.get r := by
  simp [get_succeed, h]

@[simp] theorem raise_host (e : ErrorKind) (s : State) : (raise e s).host = s.host := rfl
@[simp] theorem raise_reads (e : ErrorKind) (s : State) : (raise e s).reads = s.reads := rfl
@[simp] theorem raise_draws (e : ErrorKind) (s : State) : (raise e s).draws = s.draws := rfl
@[simp] theorem raise_drawCount (e : ErrorKind) (s : State) : (raise e s).drawCount = s.drawCount := rfl
@[simp] theorem succeed_host (s : State) : (succeed s).host = s.host := rfl
@[simp] theorem succeed_reads (s : State) : (succeed s).reads = s.reads := rfl
@[simp] theorem succeed_draws (s : State) : (succeed s).draws = s.draws := rfl
@[simp] theorem succeed_drawCount (s : State) : (succeed s).drawCount = s.drawCount := rfl

/-- Raising the same error twice is raising it once. -/
@[simp] theorem raise_raise (e : ErrorKind) (s : State) : raise e (raise e s) = raise e s := by
  refine State.ext_get (fun r => ?_) rfl rfl rfl rfl
  rw [get_raise, get_raise, get_raise, if_pos rfl]
  split <;> simp

theorem ErrorKind.code_ne_zero (e : ErrorKind) : e.code ≠ 0 := by cases e <;> decide

theorem ErrorKind.code_le (e : ErrorKind) : e.code.toNat ≤ 6 := by cases e <;> decide

theorem SameOutside.rfl' (s : State) : SameOutside s s := ⟨rfl, rfl, rfl, rfl⟩

/-- `raise E` writes STATUS.ERR and nothing else (00_scope.md R11). -/
theorem failed_raise (e : ErrorKind) (s : State) : Failed e s (raise e s) := by
  refine ⟨by simp, ⟨fun r hr _ => by simp [hr], by simp [get_raise]⟩, SameOutside.rfl' s⟩

/-- A success that wrote only the listed registers before it (00_scope.md R11). -/
theorem succeeded_succeed {written : List Reg} {s u : State} (hc : ChangedOnly written s u) (ho : SameOutside s u) :
    Succeeded written s (succeed u) := by
  refine ⟨by simp, ⟨fun r hr hw => by rw [get_succeed_of_ne u hr, hc.1 r hr hw], ?_⟩, ho⟩
  rw [get_succeed, if_pos rfl, upper_withErr, hc.2]

theorem ChangedOnly.mono {w w' : List Reg} {s t : State} (h : ChangedOnly w s t) (hw : ∀ r ∈ w, r ∈ w') :
    ChangedOnly w' s t := ⟨fun r hr hn => h.1 r hr fun hm => hn (hw r hm), h.2⟩

/-! ### Results read back -/

theorem changedOnly_writeStr (s : State) (b : List Byte) : ChangedOnly strOutRegs s (s.writeStr b) := by
  refine ⟨fun r _ hn => ?_, by simp [State.get_writeStr]⟩
  rw [State.get_writeStr]
  cases r with
  | strOut k => exact absurd (by fin_cases k <;> simp [strOutRegs]) hn
  | _ => rfl

theorem changedOnly_writeTs (s : State) (t : BitVec 48) : ChangedOnly tsOutRegs s (s.writeTs t) := by
  refine ⟨fun r _ hn => ?_, by simp [State.get_writeTs]⟩
  rw [State.get_writeTs]
  simp only [tsOutRegs, List.mem_cons, List.not_mem_nil, or_false, not_or] at hn
  simp [hn.1, hn.2]

theorem changedOnly_writeEnt (s : State) (e : List Byte) : ChangedOnly entOutRegs s (s.writeEnt e) := by
  refine ⟨fun r _ hn => ?_, by simp [State.get_writeEnt]⟩
  rw [State.get_writeEnt]
  cases r with
  | entOut k => exact absurd (by fin_cases k <;> simp [entOutRegs]) hn
  | _ => rfl

/-- STR_OUT holds the string that was packed into it (10_state.md R42). -/
theorem strOutChars_writeStr (s : State) {b : List Byte} (hb : b.length = 26) : (s.writeStr b).strOutChars = b := by
  refine List.ext_getElem (by simp [State.strOutChars, hb]) fun i h1 h2 => ?_
  simp only [State.strOutChars, List.getElem_ofFn, State.get_writeStr]
  rw [byteOf_packedWord, List.getD_eq_getElem?_getD, List.getElem?_eq_getElem h2, Option.getD_some]

@[simp] theorem strOutChars_succeed (s : State) : (succeed s).strOutChars = s.strOutChars := by
  simp [State.strOutChars]

@[simp] theorem strOutChars_raise (e : ErrorKind) (s : State) : (raise e s).strOutChars = s.strOutChars := by
  simp [State.strOutChars]

@[simp] theorem strOutChars_length (s : State) : s.strOutChars.length = 26 := by simp [State.strOutChars]
@[simp] theorem strChars_length (s : State) : s.strChars.length = 26 := by simp [State.strChars]
@[simp] theorem entBytes_length (s : State) : s.entBytes.length = 10 := by simp [State.entBytes]

/-- STR_OUT6's hardwired half (10_state.md R42). -/
theorem strOut6_writeStr (s : State) {b : List Byte} (hb : b.length = 26) :
    ((s.writeStr b).get (.strOut 6)).toNat % 2 ^ 16 = 0 := by
  have h := congrArg BitVec.toNat (packedWord_low_zero b 6 (by omega))
  rw [toNat_extract] at h
  rw [State.get_writeStr]
  simpa using h

/-- TS_OUT holds the timestamp zero-extended (10_state.md R40). -/
theorem tsOut_writeTs (s : State) (t : BitVec 48) :
    ((s.writeTs t).get .tsOutHi).toNat * 2 ^ 32 + ((s.writeTs t).get .tsOutLo).toNat = t.toNat := by
  have hlt := t.isLt
  simp only [State.get_writeTs, if_true, reduceCtorEq, if_false]
  rw [BitVec.toNat_setWidth, toNat_extract, toNat_extract]
  omega

/-- ENT_OUT holds the 10 bytes, its low 16 bits 0 (10_state.md R41). -/
theorem entOut_writeEnt (s : State) {e : List Byte} (he : e.length = 10) :
    ((s.writeEnt e).get (.entOut 0)).toNat * 2 ^ 64 + ((s.writeEnt e).get (.entOut 1)).toNat * 2 ^ 32 +
      ((s.writeEnt e).get (.entOut 2)).toNat = be e * 2 ^ 16 := by
  obtain ⟨a, b, c, d, f, g, h, i, j, k, rfl⟩ : ∃ a b c d f g h i j k, e = [a, b, c, d, f, g, h, i, j, k] := by
    match e, he with
    | [a, b, c, d, f, g, h, i, j, k], _ => exact ⟨a, b, c, d, f, g, h, i, j, k, rfl⟩
  simp only [State.get_writeEnt, packedWord_toNat]
  simp [be]
  omega

/-- The three writers of results leave their whole result in the registers, and `succeed` keeps it (10_state.md R40 to
R42). -/
theorem holdsStr_succeed_writeStr (s : State) (b : List Byte) : HoldsStr b (succeed (s.writeStr b)) := fun k => by
  rw [get_succeed_of_ne _ (by simp), State.get_writeStr]

theorem holdsEnt_succeed_writeEnt (s : State) (e : List Byte) : HoldsEnt e (succeed (s.writeEnt e)) := fun k => by
  rw [get_succeed_of_ne _ (by simp), State.get_writeEnt]

theorem holdsTs_succeed_writeTs (s : State) (t : BitVec 48) : HoldsTs t (succeed (s.writeTs t)) := by
  constructor <;> rw [get_succeed_of_ne _ (by decide), State.get_writeTs]
  · rw [if_neg (by decide), if_pos rfl]
  · rw [if_pos rfl]

/-- Writing ENT_OUT after TS_OUT leaves both results whole. -/
theorem holdsTs_succeed_writeTs_writeEnt (s : State) (t : BitVec 48) (e : List Byte) :
    HoldsTs t (succeed ((s.writeTs t).writeEnt e)) := by
  constructor <;> rw [get_succeed_of_ne _ (by decide), State.get_writeEnt] <;> simp [State.get_writeTs]

/-! ### Operands -/

/-- The entropy operand as one number (10_state.md R37). -/
theorem presentField_iff (w : Word) : presentField w = true ↔ w.toNat / 2 ^ 31 = 1 := by
  have := w.isLt
  rw [presentField, BitVec.getLsbD, Nat.testBit_eq_decide_div_mod_eq]
  simp
  omega

theorem lenField_toNat (w : Word) : (lenField w).toNat = w.toNat % 2 ^ 16 := by
  rw [lenField, toNat_extract]; simp

theorem lenField_eq_iff (w : Word) (n : Nat) (hn : n < 2 ^ 16) :
    lenField w = BitVec.ofNat 16 n ↔ w.toNat % 2 ^ 16 = n := by
  rw [← BitVec.toNat_inj, lenField_toNat, BitVec.toNat_ofNat, Nat.mod_eq_of_lt hn]

theorem ts64_toNat (s : State) : s.ts64.toNat = (s.get .tsInHi).toNat * 2 ^ 32 + (s.get .tsInLo).toNat := by
  rw [State.ts64, toNat_append_eq]

theorem inRange_iff (ts : BitVec 64) : inRange ts = true ↔ ts.toNat < 2 ^ 48 := by
  have := ts.isLt
  rw [inRange, beq_iff_eq, ← BitVec.toNat_inj, toNat_extract]
  simp
  omega

/-! ### `validate` -/

/-- What `validate` depends on. -/
theorem validate_congr {s t : State} (hc : t.get .strCtrl = s.get .strCtrl) (hs : t.strChars = s.strChars) :
    validate t = validate s := by
  simp only [validate, hc, hs]

theorem validate_eq_none_iff (s : State) :
    validate s = none ↔ presentField (s.get .strCtrl) = true ∧ lenField (s.get .strCtrl) = 26 ∧
      ∀ c ∈ s.strChars, (rankOf c).isSome = true := by
  unfold validate
  split
  · simp_all
  · split
    · simp_all
    · split
      · rename_i h
        simp only [List.any_eq_true] at h
        obtain ⟨c, hc, hn⟩ := h
        simp only [reduceCtorEq, false_iff, not_and, not_forall]
        intro _ _
        exact ⟨c, hc, by simpa using hn⟩
      · rename_i h1 h2 h
        simp only [List.any_eq_true, not_exists, not_and] at h
        simp only [true_iff]
        refine ⟨by simpa using h1, by simpa using h2, fun c hc => ?_⟩
        have := h c hc
        cases hr : rankOf c <;> simp_all

/-- The string of a validated operand is a valid string. -/
theorem validString_of_validate {s : State} (h : validate s = none) : ValidString s.strChars :=
  ⟨strChars_length s, ((validate_eq_none_iff s).mp h).2.2⟩

/-- The registers a command leaves alone give it the same string operand. -/
theorem strChars_congr {s t : State} (h : ∀ k, t.get (.strIn k) = s.get (.strIn k)) : t.strChars = s.strChars := by
  simp only [State.strChars, h]

/-- Every command that leaves the string operand's registers alone leaves `validate` its answer. -/
theorem validate_of_regs {s t : State} (h : ∀ r ∈ strOperandRegs, t.get r = s.get r) :
    validate t = validate s ∧ t.strChars = s.strChars := by
  have hc := strChars_congr (s := s) (t := t) fun k => h _ (by fin_cases k <;> simp [strOperandRegs])
  exact ⟨validate_congr (h _ (by simp [strOperandRegs])) hc, hc⟩

/-! ### Any command -/

/-- The state a command works on: RANDOM has taken its draws. -/
def inputOf (i : Instr) (s : State) : State := if i = .random then takeDraw s else s

theorem get_inputOf (i : Instr) (s : State) (r : Reg) : (inputOf i s).get r = s.get r := by
  unfold inputOf; split <;> rfl

theorem inputOf_of_ne {i : Instr} (s : State) (h : i ≠ .random) : inputOf i s = s := by rw [inputOf, if_neg h]

/-- How a command that works on `s` ended in `t`: it raised an error, or it wrote only its result registers and then
succeeded. Of STATUS it wrote VALID only if it is ISVALID. -/
def EndedIn (i : Instr) (s t : State) : Prop :=
  (∃ e, t = raise e s) ∨
    ∃ u, t = succeed u ∧ SameOutside s u ∧
      (i ≠ .isvalid → ChangedOnly (resultRegs i) s u ∧ u.get .status = s.get .status) ∧
      (i = .isvalid → u = s.setValid (validate s).isNone)

theorem endedIn_raise (i : Instr) (e : ErrorKind) (s : State) : EndedIn i s (raise e s) := .inl ⟨e, rfl⟩

theorem endedIn_succeed {i : Instr} {s u : State} (hi : i ≠ .isvalid) (hc : ChangedOnly (resultRegs i) s u)
    (ho : SameOutside s u) (hs : u.get .status = s.get .status) : EndedIn i s (succeed u) :=
  .inr ⟨u, rfl, ho, fun _ => ⟨hc, hs⟩, fun h => absurd h hi⟩

theorem endedIn_onString {i : Instr} {s u : State} (hi : i ≠ .isvalid) (hc : ChangedOnly (resultRegs i) s u)
    (ho : SameOutside s u) (hs : u.get .status = s.get .status) :
    EndedIn i s (match validate s with | some e => raise e s | none => succeed u) := by
  cases validate s with
  | some e => exact endedIn_raise i e s
  | none => exact endedIn_succeed hi hc ho hs

theorem status_writeStr (s : State) (b : List Byte) : (s.writeStr b).get .status = s.get .status :=
  State.get_writeStr s b .status

theorem status_writeTs (s : State) (t : BitVec 48) : (s.writeTs t).get .status = s.get .status := by
  rw [State.get_writeTs, if_neg (by decide), if_neg (by decide)]

theorem status_writeEnt (s : State) (e : List Byte) : (s.writeEnt e).get .status = s.get .status :=
  State.get_writeEnt s e .status

theorem sameOutside_writeStr (s : State) (b : List Byte) : SameOutside s (s.writeStr b) := ⟨rfl, rfl, rfl, rfl⟩
theorem sameOutside_writeTs (s : State) (t : BitVec 48) : SameOutside s (s.writeTs t) := ⟨rfl, rfl, rfl, rfl⟩
theorem sameOutside_writeEnt (s : State) (e : List Byte) : SameOutside s (s.writeEnt e) := ⟨rfl, rfl, rfl, rfl⟩

theorem SameOutside.trans {s t u : State} (h : SameOutside s t) (h' : SameOutside t u) : SameOutside s u :=
  ⟨h'.1.trans h.1, h'.2.1.trans h.2.1, h'.2.2.1.trans h.2.2.1, h'.2.2.2.trans h.2.2.2⟩

theorem sameOutside_set (s : State) (r : Reg) (v : Word) : SameOutside s (s.set r v) := ⟨rfl, rfl, rfl, rfl⟩

theorem changedOnly_symOut (s : State) (v : Word) : ChangedOnly [.symOut] s (s.set .symOut v) := by
  refine ⟨fun r _ hn => ?_, by rw [State.get_set, if_neg (by decide)]⟩
  rw [State.get_set, if_neg (by simpa using hn)]

/-- DECODE's two results together. -/
theorem changedOnly_writeTs_writeEnt (s : State) (t : BitVec 48) (e : List Byte) :
    ChangedOnly (tsOutRegs ++ entOutRegs) s ((s.writeTs t).writeEnt e) := by
  have h1 := changedOnly_writeTs s t
  have h2 := changedOnly_writeEnt (s.writeTs t) e
  refine ⟨fun r hr hn => ?_, by rw [h2.2, h1.2]⟩
  rw [List.mem_append, not_or] at hn
  rw [h2.1 r hr hn.2, h1.1 r hr hn.1]

/-- What every command does: it answers a next state, in which it has ended as `EndedIn` says. -/
theorem exec_result (i : Instr) (s : State) : ∃ t, exec i s = .next t ∧ EndedIn i (inputOf i s) t := by
  cases i with
  | generate =>
    refine ⟨_, rfl, ?_⟩
    rw [inputOf, if_neg (by decide)]
    split
    · exact endedIn_raise _ _ _
    split
    · exact endedIn_raise _ _ _
    split
    · exact endedIn_raise _ _ _
    exact endedIn_succeed (by decide) (changedOnly_writeStr _ _) (sameOutside_writeStr _ _) (status_writeStr _ _)
  | random =>
    refine ⟨_, rfl, ?_⟩
    rw [inputOf, if_pos rfl, randomResult]
    split
    · exact endedIn_raise _ _ _
    split
    · exact endedIn_raise _ _ _
    split
    · exact endedIn_raise _ _ _
    exact endedIn_succeed (by decide) (changedOnly_writeStr _ _) (sameOutside_writeStr _ _) (status_writeStr _ _)
  | parse =>
    refine ⟨_, rfl, ?_⟩
    rw [inputOf, if_neg (by decide)]
    exact endedIn_onString (by decide) (changedOnly_writeStr _ _) (sameOutside_writeStr _ _) (status_writeStr _ _)
  | isvalid => exact ⟨_, rfl, .inr ⟨_, rfl, ⟨rfl, rfl, rfl, rfl⟩, fun h => absurd rfl h, fun _ => rfl⟩⟩
  | getts =>
    refine ⟨_, rfl, ?_⟩
    rw [inputOf, if_neg (by decide)]
    exact endedIn_onString (by decide) (changedOnly_writeTs _ _) (sameOutside_writeTs _ _) (status_writeTs _ _)
  | getent =>
    refine ⟨_, rfl, ?_⟩
    rw [inputOf, if_neg (by decide)]
    exact endedIn_onString (by decide) (changedOnly_writeEnt _ _) (sameOutside_writeEnt _ _) (status_writeEnt _ _)
  | decode =>
    refine ⟨_, rfl, ?_⟩
    rw [inputOf, if_neg (by decide)]
    exact endedIn_onString (by decide) (changedOnly_writeTs_writeEnt _ _ _)
      ((sameOutside_writeTs _ _).trans (sameOutside_writeEnt _ _))
      ((status_writeEnt _ _).trans (status_writeTs _ _))
  | encsym rank =>
    refine ⟨_, rfl, ?_⟩
    rw [inputOf, if_neg (by simp)]
    split
    · exact endedIn_raise _ _ _
    exact endedIn_succeed (by simp) (changedOnly_symOut _ _) (sameOutside_set _ _ _) (by simp)
  | decsym char =>
    refine ⟨_, rfl, ?_⟩
    rw [inputOf, if_neg (by simp)]
    split
    · exact endedIn_raise _ _ _
    exact endedIn_succeed (by simp) (changedOnly_symOut _ _) (sameOutside_set _ _ _) (by simp)

end Sys2Proof.Machine
end

