-- ==== Sys2Proof/Laws/Encoding.lean ====
section
/-! SUPPORT. The fields of format C and what the decoder makes of them (30_encoding.md R100, R101). -/

namespace Sys2Proof.Laws

theorem formatC_toNat (op : BitVec 4) (arg : Byte) : (formatC op arg).toNat = arg.toNat * 2 ^ 8 + op.toNat := by
  unfold formatC
  rw [Machine.toNat_append_eq, Machine.toNat_append_eq, Machine.toNat_append_eq]
  simp

/-- The fields of a word put together by `formatC`. -/
theorem fields_formatC (op : BitVec 4) (arg : Byte) :
    opField (formatC op arg) = op ∧ rsv0Field (formatC op arg) = 0 ∧ argField (formatC op arg) = arg ∧
      rsv1Field (formatC op arg) = 0 := by
  have hv := formatC_toNat op arg
  have h1 := op.isLt
  have h2 := arg.isLt
  refine ⟨?_, ?_, ?_, ?_⟩ <;> apply BitVec.eq_of_toNat_eq
  · rw [opField, Machine.toNat_extract, hv]; omega
  · rw [rsv0Field, Machine.toNat_extract, hv]; show _ = 0; omega
  · rw [argField, Machine.toNat_extract, hv]; omega
  · rw [rsv1Field, Machine.toNat_extract, hv]; show _ = 0; omega

/-- A word whose reserved fields are 0 is put together from its other two. -/
theorem formatC_fields {w : Word} (h0 : rsv0Field w = 0) (h1 : rsv1Field w = 0) :
    formatC (opField w) (argField w) = w := by
  have hw := w.isLt
  have h0' := congrArg BitVec.toNat h0
  have h1' := congrArg BitVec.toNat h1
  rw [rsv0Field, Machine.toNat_extract] at h0'
  rw [rsv1Field, Machine.toNat_extract] at h1'
  apply BitVec.eq_of_toNat_eq
  rw [formatC_toNat, opField, argField, Machine.toNat_extract, Machine.toNat_extract]
  change _ = 0 at h0'
  change _ = 0 at h1'
  omega

/-- What the decoder makes of a word of format C. -/
theorem decode_formatC (op : BitVec 4) (arg : Byte) : decode (formatC op arg) = decodeOp (formatC op arg) := by
  obtain ⟨-, h2, -, h4⟩ := fields_formatC op arg
  simp [decode, h2, h4]

/-- The decoder's answer, by the number in OP. -/
theorem decodeOp_cases (w : Word) :
    ((opField w).toNat = 0x1 ∧ decodeOp w = withoutArg w .generate) ∨
    ((opField w).toNat = 0x2 ∧ decodeOp w = withoutArg w .random) ∨
    ((opField w).toNat = 0x3 ∧ decodeOp w = withoutArg w .parse) ∨
    ((opField w).toNat = 0x4 ∧ decodeOp w = withoutArg w .isvalid) ∨
    ((opField w).toNat = 0x5 ∧ decodeOp w = withoutArg w .getts) ∨
    ((opField w).toNat = 0x6 ∧ decodeOp w = withoutArg w .getent) ∨
    ((opField w).toNat = 0x7 ∧ decodeOp w = withoutArg w .decode) ∨
    ((opField w).toNat = 0x8 ∧ decodeOp w = .instr (.encsym (argField w).toNat)) ∨
    ((opField w).toNat = 0x9 ∧ decodeOp w = .instr (.decsym (argField w))) ∨
    (((opField w).toNat = 0x0 ∨ 0xA ≤ (opField w).toNat) ∧ decodeOp w = .rejected .unassignedOpcode) := by
  have hlt := (opField w).isLt
  unfold decodeOp
  generalize (opField w).toNat = n at *
  interval_cases n <;> simp

end Sys2Proof.Laws
end

