-- ==== Sys2Proof/Laws/HostPort.lean ====
section
/-! SUPPORT. The register window and the host port: the address map both ways (10_state.md R33), what each action of
the host does as a step (20_memory.md R71 to R73), and which of them stop the machine. -/

namespace Sys2Proof.Machine

/-! ### The address map -/

theorem regAt_offset (r : Reg) : regAt r.offset = some r := by
  have h : ∀ r : Reg, regAt r.offset = some r := by decide +kernel
  exact h r

theorem admitted_offset (r : Reg) : admitted r.offset 32 = true := by
  have h : ∀ r : Reg, admitted r.offset 32 = true := by decide +kernel
  exact h r

/-- The reserved offsets are the admitted ones at which no register is named (10_state.md R33). -/
theorem reserved_iff (off : Nat) : (admitted off 32 = true ∧ regAt off = none) ↔ off = 0x74 ∨ off = 0x78 ∨ off = 0x7C := by
  have h : ∀ off : Fin 128, (admitted off.val 32 = true ∧ regAt off.val = none) ↔
      off.val = 0x74 ∨ off.val = 0x78 ∨ off.val = 0x7C := by decide +kernel
  by_cases hlt : off < 128
  · exact h ⟨off, hlt⟩
  · constructor
    · rintro ⟨ha, -⟩
      simp [admitted] at ha
      omega
    · omega

theorem admitted_eq_false_iff (off width : Nat) :
    admitted off width = false ↔ width ≠ 32 ∨ off % 4 ≠ 0 ∨ 0x7F < off := by
  simp only [admitted, Bool.and_eq_false_iff, beq_eq_false_iff_ne, decide_eq_false_iff_not, ne_eq]
  omega

theorem regReadValue_offset (s : State) (r : Reg) : regReadValue s r.offset = s.get r &&& r.mask := by
  simp [regReadValue, regAt_offset]

theorem regStore_offset (s : State) (r : Reg) (v : Word) :
    regStore s r.offset v = if r.writable then s.set r (v &&& r.mask) else s := by
  simp [regStore, regAt_offset]

theorem regStore_reserved (s : State) {off : Nat} (h : regAt off = none) (v : Word) : regStore s off v = s := by
  simp [regStore, h]

theorem regReadValue_reserved (s : State) {off : Nat} (h : regAt off = none) : regReadValue s off = 0 := by
  simp [regReadValue, h]

theorem and_cmd_mask (v : Word) : v &&& Reg.cmd.mask = v := by
  rw [show Reg.cmd.mask = BitVec.allOnes 32 by decide, BitVec.and_allOnes]

/-- A store of the window changes no other field than the register file. -/
theorem regStore_outside (s : State) (off : Nat) (v : Word) : SameOutside s (regStore s off v) := by
  unfold regStore
  split
  · split
    · exact sameOutside_set _ _ _
    · exact SameOutside.rfl' s
  · exact SameOutside.rfl' s

/-! ### Steps -/

theorem step_of_host {s : State} {a : HostAction} {rest : List HostAction} (h : s.host = a :: rest) :
    step s = perform a { s with host := rest } := by
  simp [step, h]

/-- A write of a command word is one step: the word goes to CMD and is executed (20_memory.md R73). -/
theorem step_write_cmd {s : State} {w : Word} {rest : List HostAction} (h : s.host = .write 0x00 32 w :: rest) :
    step s = execWord w { s.set .cmd w with host := rest } := by
  have ha : admitted 0x00 32 = true := by decide
  have hs (u : State) : regStore u 0x00 w = u.set .cmd w := by
    have := regStore_offset u .cmd w
    rw [and_cmd_mask] at this
    exact this
  rw [step_of_host h]
  simp only [perform, hostWrite, ha, if_true, Reg.offset, hs]
  rfl

theorem step_read {s : State} {off : Nat} {rest : List HostAction} (h : s.host = .read off 32 :: rest)
    (ha : admitted off 32 = true) :
    step s = .next { s with host := rest, reads := s.reads ++ [regReadValue s off] } := by
  rw [step_of_host h]
  simp only [perform, hostRead, ha, if_true]
  rfl

theorem step_write {s : State} {off : Nat} {v : Word} {rest : List HostAction} (h : s.host = .write off 32 v :: rest)
    (ha : admitted off 32 = true) (h0 : off ≠ 0) :
    step s = .next (regStore { s with host := rest } off v) := by
  rw [step_of_host h]
  simp only [perform, hostWrite, ha, if_true, if_neg (show ¬ off = Reg.cmd.offset from h0)]

theorem offset_ne_zero {r : Reg} (h : r ≠ .cmd) : r.offset ≠ 0 := by
  have h' : ∀ r : Reg, r ≠ .cmd → r.offset ≠ 0 := by decide +kernel
  exact h' r h

/-- A host write to an RW register other than CMD is one step, and stores the word without its reserved bits. -/
theorem step_write_reg {s : State} {r : Reg} {v : Word} {rest : List HostAction}
    (h : s.host = .write r.offset 32 v :: rest) (hc : r ≠ .cmd) (hw : r.writable = true) :
    step s = .next (State.set { s with host := rest } r (v &&& r.mask)) := by
  rw [step_write h (admitted_offset r) (offset_ne_zero hc), regStore_offset, if_pos hw]

/-- A run of `n + 1` steps is its first step and a run of `n`. -/
theorem core_run_succ {s t : State} (n : Nat) (h : step s = .next t) :
    Sys2Proof.core.run (n + 1) s = Sys2Proof.core.run n t := by
  have h' : Sys2Proof.core.step s = .next t := h
  simp only [Host.Core.run, h']

/-- What one action does: it answers a next state unless it is an access that the window does not admit. -/
theorem perform_result (a : HostAction) (s : State) :
    (∃ t, perform a s = .next t) ∨
      ∃ off width, admitted off width = false ∧ perform a s = .fault (.hostAccessFault off width) ∧
        (a = .read off width ∨ ∃ v, a = .write off width v) := by
  cases a with
  | read off width =>
    cases h : admitted off width with
    | true => exact .inl ⟨_, by simp only [perform, hostRead, h, if_true]; rfl⟩
    | false => exact .inr ⟨off, width, h, by simp [perform, hostRead, h], .inl rfl⟩
  | write off width v =>
    cases h : admitted off width with
    | true =>
      by_cases h0 : off = Reg.cmd.offset
      · cases hd : decode v with
        | instr i =>
          obtain ⟨t, ht, -⟩ := exec_result i (regStore s off v)
          exact .inl ⟨t, by simp [perform, hostWrite, h, if_pos h0, execWord, hd, ht]⟩
        | rejected r => exact .inl ⟨_, by simp only [perform, hostWrite, h, if_true, if_pos h0, execWord, hd]; rfl⟩
      · exact .inl ⟨_, by simp only [perform, hostWrite, h, if_true, if_neg h0]; rfl⟩
    | false => exact .inr ⟨off, width, h, by simp [perform, hostWrite, h], .inr ⟨v, rfl⟩⟩
  | copy dst src => exact .inl ⟨_, rfl⟩
  | branch r mask value nThen nElse => exact .inl ⟨_, rfl⟩
  | halt => exact .inl ⟨_, rfl⟩
  | assertReset => exact .inl ⟨_, rfl⟩

/-! ### The host's notation -/

/-- An `if` line is its branch and the two groups, and the branch goes on with one of them (30_encoding.md R105). -/
theorem branch_groups (thn els rest : List HostAction) :
    (thn ++ els ++ rest).take thn.length ++ (thn ++ els ++ rest).drop (thn.length + els.length) = thn ++ rest ∧
      (thn ++ els ++ rest).drop thn.length = els ++ rest := by
  constructor
  · rw [List.append_assoc, List.take_left, ← List.append_assoc, ← List.length_append, List.drop_left]
  · rw [List.append_assoc, List.drop_left]

end Sys2Proof.Machine
end

