-- ==== Sys2Proof/Laws/PerInstr.lean ====
section
/-! SUPPORT. The family FormatC: every command's word has format C, its reserved fields 0 and its OP that of the
command's row (30_encoding.md R100, R102). -/

namespace Sys2Proof.Laws

/-- The word of the command has RSV0 = RSV1 = 0, and ARG = 0 where the command takes no immediate. -/
def FormatC.Statement (i : Instr) : Prop :=
  rsv0Field (encode i) = 0 ∧ rsv1Field (encode i) = 0 ∧ (opField (encode i)).toNat ∈ List.range' 1 9 ∧
    ((opField (encode i)).toNat ≤ 7 → argField (encode i) = 0)

theorem formatC_statement (op : BitVec 4) (arg : Byte) {i : Instr} (he : encode i = formatC op arg)
    (hop : op.toNat ∈ List.range' 1 9) (harg : op.toNat ≤ 7 → arg = 0) : FormatC.Statement i := by
  obtain ⟨h1, h2, h3, h4⟩ := fields_formatC op arg
  rw [FormatC.Statement, he, h1, h2, h3, h4]
  exact ⟨rfl, rfl, hop, harg⟩

theorem FormatC.generate : FormatC.Statement .generate := formatC_statement 0x1 0 rfl (by decide) fun _ => rfl
theorem FormatC.random : FormatC.Statement .random := formatC_statement 0x2 0 rfl (by decide) fun _ => rfl
theorem FormatC.parse : FormatC.Statement .parse := formatC_statement 0x3 0 rfl (by decide) fun _ => rfl
theorem FormatC.isvalid : FormatC.Statement .isvalid := formatC_statement 0x4 0 rfl (by decide) fun _ => rfl
theorem FormatC.getts : FormatC.Statement .getts := formatC_statement 0x5 0 rfl (by decide) fun _ => rfl
theorem FormatC.getent : FormatC.Statement .getent := formatC_statement 0x6 0 rfl (by decide) fun _ => rfl
theorem FormatC.decode : FormatC.Statement .decode := formatC_statement 0x7 0 rfl (by decide) fun _ => rfl

theorem FormatC.encsym (rank : Nat) : FormatC.Statement (.encsym rank) :=
  formatC_statement 0x8 _ rfl (by decide) fun h => absurd h (by decide)

theorem FormatC.decsym (char : Byte) : FormatC.Statement (.decsym char) :=
  formatC_statement 0x9 _ rfl (by decide) fun h => absurd h (by decide)

end Sys2Proof.Laws
end

