-- ==== Sys2Proof/Tests/Slice0.lean ====
section
/-! SUPPORT. The tests: a smoke test of WellFormed, command words written out from 30_encoding.md R100 and R102, single
steps against the vectors of 95_test_vectors.md, and for every statement with hypotheses a witness that meets them. -/

open Sys2Proof Sys2Proof.Machine

namespace Sys2Proof.Tests

/-! ### Small states -/

/-- The reset state with some registers written. -/
def withRegs (l : List (Reg × Word)) : State := l.foldl (fun s p => s.set p.1 p.2) State.reset

/-- The reset state with a string operand (30_encoding.md R106 `ldstr`). -/
def withString (text : String) : State :=
  withRegs ((.strCtrl, Notation.descriptor text.length) ::
    (List.finRange 7).map fun k => (.strIn k, packedWord (Notation.chars text) k.val))

/-- The reset state with a timestamp operand and ten entropy bytes (30_encoding.md R106 `ldts`, `ldent`). -/
def withParts (hi lo : Word) (e : List Byte) : State :=
  withRegs [(.tsInHi, hi), (.tsInLo, lo), (.entCtrl, Notation.descriptor e.length), (.entIn 0, packedWord e 0),
    (.entIn 1, packedWord e 1), (.entIn 2, packedWord e 2)]

/-- The reset state with the host about to act. -/
def withHost (l : List HostAction) : State := { State.reset with host := l }

/-- The reset state with one answer of the collaborators ready. -/
def withDraw (clock : BitVec 64) (a : EntropyAnswer) : State := { State.reset with draws := [⟨clock, a⟩] }

def isNext : Host.Outcome State Fault Refusal → Bool
  | .next _ => true
  | _ => false

def after : Host.Outcome State Fault Refusal → State
  | .next t => t
  | _ => State.reset

theorem eq_next {o : Host.Outcome State Fault Refusal} (h : isNext o = true) : o = .next (after o) := by
  cases o <;> simp_all [isNext, after]

/-- The state after the host has written the command word. -/
def command (s : State) (w : Nat) : State := after (step (s.withFetchWord 32 w))

/-- The 26 characters in STR_OUT are those of the text. -/
def writes (text : String) (s : State) : Bool := s.strOutChars == Notation.chars text

def ulid : String := "01EA9F3000ZZZZZZZZZZZZZZZZ"
def lowerUlid : String := "01ea9f3000zzzzzzzzzzzzzzzz"
def topUlid : String := "7ZZZZZZZZZZZZZZZZZZZZZZZZZ"
def allZ : String := "ZZZZZZZZZZZZZZZZZZZZZZZZZZ"
def badUlid : String := "0000000000000000000000000U"
def ff10 : List Byte := List.replicate 10 0xFF

/-! ### WellFormed -/

theorem test_wellFormed_rank_255 : (Instr.encsym 255).wellFormed = true := by decide
theorem test_wellFormed_refuses_rank_256 : (Instr.encsym 256).wellFormed = false := by decide

/-! ### Command words, RSV1 ARG RSV0 OP from the top (30_encoding.md R100, R102) -/

theorem test_decode_generate : decode 0b0000000000000000_00000000_0000_0001 = .instr .generate := by decide
theorem test_decode_random : decode 0b0000000000000000_00000000_0000_0010 = .instr .random := by decide
theorem test_decode_parse : decode 0b0000000000000000_00000000_0000_0011 = .instr .parse := by decide
theorem test_decode_isvalid : decode 0b0000000000000000_00000000_0000_0100 = .instr .isvalid := by decide
theorem test_decode_getts : decode 0b0000000000000000_00000000_0000_0101 = .instr .getts := by decide
theorem test_decode_getent : decode 0b0000000000000000_00000000_0000_0110 = .instr .getent := by decide
theorem test_decode_decode : decode 0b0000000000000000_00000000_0000_0111 = .instr .decode := by decide
theorem test_decode_encsym : decode 0b0000000000000000_10010011_0000_1000 = .instr (.encsym 147) := by decide
theorem test_decode_decsym : decode 0b0000000000000000_01101101_0000_1001 = .instr (.decsym 0x6D) := by decide

/-- L2-9: the illegal words, each for its reason. -/
theorem test_decode_rejects :
    decode 0x0000000A = .rejected .unassignedOpcode ∧ decode 0x0000000F = .rejected .unassignedOpcode ∧
      decode 0x00000010 = .rejected .reservedBits ∧ decode 0x00010001 = .rejected .reservedBits ∧
      decode 0x80000004 = .rejected .reservedBits ∧ decode 0x00FF0009 = .rejected .reservedBits ∧
      decode 0x00000F02 = .rejected .argNotZero ∧ decode 0x0000FF07 = .rejected .argNotZero := by decide

theorem test_decodeTableWord : decodeTableWord 32 0x1208 = some (.encsym 18) ∧ decodeTableWord 32 0 = none := by decide

/-! ### Single steps (95_test_vectors.md) -/

/-- L2-3, the row with e = 00 11 .. 99. -/
theorem test_generate :
    let t := command (withParts 0x00000123 0x456789AB [0x00, 0x11, 0x22, 0x33, 0x44, 0x55, 0x66, 0x77, 0x88, 0x99]) 1
    writes "014D2PF2DB008J4CT4ANK7F24S" t = true ∧ t.get (.strOut 0) = 0x30313444 ∧ t.get (.strOut 6) = 0x34530000 ∧
      t.get .status = 0 := by decide +kernel

/-- L2-4: out of range and wrong length report the range. -/
theorem test_generate_range_before_length :
    let t := command (withParts 0x00010000 0 (List.replicate 9 0)) 1
    t.get .status = 0x001 ∧ t.get (.strOut 0) = 0 := by decide +kernel

/-- L2-5: RANDOM with draws 1591603200001 and AB×10. -/
theorem test_random :
    let t := command (withDraw 1591603200001 (.bytes (List.replicate 10 0xAB))) 2
    writes "01EA9F3001NENTQAXBNENTQAXB" t = true ∧ t.get .status = 0 ∧ t.draws = [] := by decide +kernel

/-- L2-5: a source failure is reported before the clock's range. -/
theorem test_random_failure_before_range :
    let t := command (withDraw 0x0001000000000000 .fail) 2
    t.get .status = 0x005 ∧ t.draws = [] := by decide +kernel

/-- L2-7: mixed case is folded. -/
theorem test_parse :
    let t := command (withString "01eA9f3000ZzZzZzZzZzZzZzZz") 3
    writes ulid t = true ∧ t.get .status = 0 := by decide +kernel

/-- L2-7: a first symbol of rank 31 is kept. -/
theorem test_parse_keeps_top_symbol : writes allZ (command (withString allZ) 3) = true := by decide +kernel

/-- R182's example, and L2-7. -/
theorem test_isvalid :
    (command (withString badUlid) 4).get .status = 0x000 ∧ (command (withString lowerUlid) 4).get .status = 0x100 := by
  decide +kernel

/-- L2-8: VALID is kept by a PARSE that fails. -/
theorem test_valid_is_kept : (command ((withString "").set .status 0x100) 3).get .status = 0x102 := by decide +kernel

/-- L1-6. -/
theorem test_getts :
    let t := command (withString ulid) 5
    t.get .tsOutHi = 0x00000172 ∧ t.get .tsOutLo = 0x92F18000 ∧ t.get (.entOut 0) = 0 := by decide +kernel

/-- L2-7: an illegal character at position 25 makes GETTS fail. -/
theorem test_getts_checks_every_character :
    let t := command (withString "01EA9F3000ZZZZZZZZZZZZZZZU") 5
    t.get .status = 0x004 ∧ t.get .tsOutLo = 0 := by decide +kernel

/-- L2-6, the row `0123456789ABCDEFGHJKMNPQRS`. -/
theorem test_getent :
    let t := command (withString "0123456789ABCDEFGHJKMNPQRS") 6
    t.get (.entOut 0) = 0x52D8D73E ∧ t.get (.entOut 1) = 0x1194E95B ∧ t.get (.entOut 2) = 0x5F190000 ∧
      t.get .tsOutLo = 0 := by decide +kernel

/-- L2-6: a first symbol of rank 8 loses its top two bits. -/
theorem test_decode_drops_top_bits :
    let t := command (withString "8ZZZZZZZZZ0000000000000000") 7
    t.get .tsOutHi = 0x00001FFF ∧ t.get .tsOutLo = 0xFFFFFFFF ∧ t.get (.entOut 0) = 0 ∧ t.get .status = 0 := by
  decide +kernel

/-- R156's corner case: all Z. -/
theorem test_decode_all_z :
    let t := command (withString allZ) 7
    t.get .tsOutHi = 0x0000FFFF ∧ t.get .tsOutLo = 0xFFFFFFFF ∧ t.get (.entOut 0) = 0xFFFFFFFF ∧
      t.get (.entOut 1) = 0xFFFFFFFF ∧ t.get (.entOut 2) = 0xFFFF0000 := by decide +kernel

/-- L2-1: ranks 18, 31 and 32. -/
theorem test_encsym :
    (command State.reset 0x1208).get .symOut = 0x0000004A ∧ (command State.reset 0x1F08).get .symOut = 0x0000005A ∧
      (command State.reset 0x2008).get .symOut = 0 ∧ (command State.reset 0x2008).get .status = 0x001 := by
  decide +kernel

/-- L2-2: `m`, `Z`, `z`, and `l`, which is no alias of 1. -/
theorem test_decsym :
    (command State.reset 0x6D09).get .symOut = 0x00000014 ∧ (command State.reset 0x5A09).get .symOut = 0x0000001F ∧
      (command State.reset 0x7A09).get .symOut = 0x0000001F ∧ (command State.reset 0x6C09).get .status = 0x004 := by
  decide +kernel

/-- L2-9: an illegal word with VALID set, and CMD reads back the word. -/
theorem test_illegal_word :
    let t := command (State.reset.set .status 0x100) 0x80000004
    t.get .status = 0x106 ∧ t.get .cmd = 0x80000004 := by decide +kernel

/-- L2-10: reserved bits drop, RO registers and reserved offsets ignore writes. -/
theorem test_window :
    (after (step (withHost [.write 0x1C 32 0x12345678]))).get (.entIn 2) = 0x12340000 ∧
      (after (step (withHost [.write 0x3C 32 0xAABBCCDD]))).get (.strIn 6) = 0xAABB0000 ∧
      (after (step (withHost [.write 0x10 32 0xFFFFFFFF]))).get .entCtrl = 0x8000FFFF ∧
      after (step (withHost [.write 0x04 32 0xFFFFFFFF])) = State.reset ∧
      (after (step (withHost [.read 0x74 32]))).reads = [0] := by decide +kernel

/-- L2-10: the four accesses that fault. -/
theorem test_faults :
    step (withHost [.read 0x02 32]) = .fault (.hostAccessFault 0x02 32) ∧
      step (withHost [.read 0x04 8]) = .fault (.hostAccessFault 0x04 8) ∧
      step (withHost [.read 0x80 32]) = .fault (.hostAccessFault 0x80 32) ∧
      step (withHost [.write 0x00 16 1]) = .fault (.hostAccessFault 0x00 16) := ⟨rfl, rfl, rfl, rfl⟩

/-! ### The host's notation -/

/-- L1-6, the words of `ldstr`. -/
theorem test_ldstr : Notation.ldstr (Notation.chars ulid) =
    [.write 0x24 32 0x30314541, .write 0x28 32 0x39463330, .write 0x2C 32 0x30305A5A, .write 0x30 32 0x5A5A5A5A,
      .write 0x34 32 0x5A5A5A5A, .write 0x38 32 0x5A5A5A5A, .write 0x3C 32 0x5A5A0000, .write 0x20 32 0x8000001A] := by
  decide +kernel

/-- P4, the accesses of `ldts -1` and of `ldent 1, ..., 9`. -/
theorem test_ldts_ldent :
    Notation.ldts (BitVec.ofInt 64 (-1)) = [.write 0x08 32 0xFFFFFFFF, .write 0x0C 32 0xFFFFFFFF] ∧
      Notation.ldent [1, 2, 3, 4, 5, 6, 7, 8, 9] =
        [.write 0x14 32 0x01020304, .write 0x18 32 0x05060708, .write 0x1C 32 0x09000000,
          .write 0x10 32 0x80000009] := by decide +kernel

theorem test_regNamed : Notation.regNamed "Str_In6" = some (.strIn 6) ∧ Notation.regNamed "R0" = none := by
  decide +kernel

/-! ### Witnesses: states and operands that meet the hypotheses of each statement -/

theorem witness_DecodeOfEncodeIsTheCommand :
    Instr.generate.wellFormed = true ∧ (Instr.encsym 0).wellFormed = true ∧ (Instr.encsym 255).wellFormed = true ∧
      (Instr.decsym 0xFF).wellFormed = true := by decide

theorem witness_EncodeOfDecodeIsTheWord :
    decode 0x00000007 = .instr .decode ∧ decode 0x0000FF08 = .instr (.encsym 255) := by decide

/-- One word of each illegal kind, at the edges, and one legal word. -/
theorem witness_IllegalWordsRaiseIllegalCommand :
    (withHost [.write 0x00 32 0x00000010]).host = .write 0x00 32 0x00000010 :: [] ∧
      rsv0Field 0x00000011 ≠ 0 ∧ rsv1Field 0x80000004 ≠ 0 ∧ opField 0x00000000 = 0x0 ∧
      0xA ≤ (opField 0x0000000A).toNat ∧
      (1 ≤ (opField 0x0000FF07).toNat ∧ (opField 0x0000FF07).toNat ≤ 7 ∧ argField 0x0000FF07 ≠ 0) ∧
      ¬ (rsv0Field 0x0000FF08 ≠ 0 ∨ rsv1Field 0x0000FF08 ≠ 0 ∨ opField 0x0000FF08 = 0x0 ∨
        0xA ≤ (opField 0x0000FF08).toNat ∨
        (1 ≤ (opField 0x0000FF08).toNat ∧ (opField 0x0000FF08).toNat ≤ 7 ∧ argField 0x0000FF08 ≠ 0)) := by
  decide

theorem witness_StepRunsTheDecodedCommand :
    (withHost [.write 0x00 32 0x00001208, .halt]).host = .write 0x00 32 0x00001208 :: [.halt] ∧
      decode 0x00001208 = .instr (.encsym 18) := by decide

/-- An access past the end, an unaligned one and two of another width. -/
theorem witness_InadmissibleAccessIsAFault :
    (((32 : Nat) ≠ 32 ∨ 0x80 % 4 ≠ 0 ∨ 0x7F < 0x80) ∧ (withHost [.read 0x80 32]).host = .read 0x80 32 :: []) ∧
      (((32 : Nat) ≠ 32 ∨ 0x02 % 4 ≠ 0 ∨ 0x7F < 0x02) ∧ (withHost [.write 0x02 32 1]).host = .write 0x02 32 1 :: []) ∧
      (((8 : Nat) ≠ 32 ∨ 0x04 % 4 ≠ 0 ∨ 0x7F < 0x04) ∧ (withHost [.read 0x04 8]).host = .read 0x04 8 :: []) ∧
      (((64 : Nat) ≠ 32 ∨ 0x7C % 4 ≠ 0 ∨ 0x7F < 0x7C) ∧ (withHost [.write 0x7C 64 1]).host = .write 0x7C 64 1 :: []) := by
  decide

theorem witness_HostReadAndWriteReachTheSlots :
    (withHost [.read 0x00 32]).host = .read (Reg.offset .cmd) 32 :: [] ∧
      (withHost [.read 0x70 32]).host = .read (Reg.offset .symOut) 32 :: [] ∧
      (withHost [.read 0x7C 32]).host = .read 0x7C 32 :: [] ∧
      ((withHost [.write 0x3C 32 0xAABBCCDD]).host = .write (Reg.offset (.strIn 6)) 32 0xAABBCCDD :: [] ∧
        Reg.writable (.strIn 6) = true ∧ Reg.strIn 6 ≠ .cmd) ∧
      ((withHost [.write 0x04 32 1]).host = .write (Reg.offset .status) 32 1 :: [] ∧ Reg.writable .status = false) ∧
      (withHost [.write 0x74 32 1]).host = .write 0x74 32 1 :: [] ∧
      (withHost [.write 0x00 32 0]).host = .write 0x00 32 0 :: [] ∧
      isNext (step (withHost [.read 0x7C 32])) = true := by decide +kernel

theorem witness_AccessRulesHoldForEveryRegister :
    (∃ t, step (withHost [.read (Reg.offset .status) 32]) = .next t) ∧
      (∃ t, Reg.entIn 2 ≠ .cmd ∧ Reg.writable (.entIn 2) = true ∧
        step (withHost [.write (Reg.offset (.entIn 2)) 32 1]) = .next t) ∧
      (∃ t, Reg.writable .tsOutHi = false ∧ step (withHost [.write (Reg.offset .tsOutHi) 32 5]) = .next t) ∧
      (∃ t, step (withHost [.read 0x78 32]) = .next t) ∧ ∃ t, step (withHost [.write 0x78 32 5]) = .next t :=
  ⟨⟨_, eq_next (by decide +kernel)⟩, ⟨_, by decide, by decide, eq_next (by decide +kernel)⟩,
    ⟨_, by decide, eq_next (by decide +kernel)⟩, ⟨_, eq_next (by decide +kernel)⟩, ⟨_, eq_next (by decide +kernel)⟩⟩

theorem witness_ReadAfterWriteGivesTheValueWritten :
    Reg.writable (.strIn 6) = true ∧ Reg.strIn 6 ≠ .cmd ∧
      (withHost [.write 0x3C 32 7, .read 0x3C 32]).host =
        .write (Reg.offset (.strIn 6)) 32 7 :: .read (Reg.offset (.strIn 6)) 32 :: [] := by decide

theorem witness_CmdHoldsTheLastWordWritten :
    (withHost [.write 0x00 32 0x80000004]).host = .write 0x00 32 0x80000004 :: [] ∧
      (∃ t, exec .generate State.reset = .next t) ∧ (withHost [.read 0x00 32]).host = .read 0x00 32 :: [] :=
  ⟨rfl, ⟨_, rfl⟩, rfl⟩

theorem witness_ResetInputClearsEveryRegister :
    State.host { withString ulid with host := [.assertReset, .halt] } = .assertReset :: [.halt] := rfl

theorem witness_NothingHappensWithoutAHostAction : State.reset.host = [] := rfl

theorem witness_CopyReadsThenWrites :
    (withHost [.copy .tsInLo .tsOutLo]).host = .copy .tsInLo .tsOutLo :: [] ∧ Reg.writable .tsInLo = true ∧
      Reg.tsInLo ≠ .cmd ∧ (withHost [.copy .symOut .cmd]).host = .copy .symOut .cmd :: [] ∧
      Reg.writable .symOut = false ∧ Reg.symOut ≠ .cmd := by decide

/-- Both branches: from reset STATUS.ERR is 0, and it is not 1. -/
theorem witness_BranchReadsOnceAndChoosesAGroup :
    let thn : List HostAction := [.read 0x04 32]
    let els : List HostAction := [.halt, .halt]
    (withHost (Notation.ifThen .status 0xF 0 thn els ++ [.assertReset])).host =
        .branch .status 0xF 0 thn.length els.length :: (thn ++ els ++ [.assertReset]) ∧
      State.reset.get .status &&& Reg.mask .status &&& 0xF = 0 ∧
      State.reset.get .status &&& Reg.mask .status &&& 0xF ≠ 1 := by decide +kernel

theorem witness_LoadingPseudosPresentTheirOperand :
    (withHost (Notation.ldts 5 ++ [.halt])).host = Notation.ldts 5 ++ [.halt] ∧
      (withHost (Notation.ldent [] ++ [])).host = Notation.ldent [] ++ [] ∧
      (withHost (Notation.ldstr (Notation.chars allZ) ++ [])).host = Notation.ldstr (Notation.chars allZ) ++ [] :=
  ⟨rfl, rfl, rfl⟩

theorem witness_TablesIncreaseInvertAndFold :
    (9 : Rank) < 10 ∧ rankOf 0x7A = some 31 ∧ rankOf 0x30 = some 0 := by decide +kernel

theorem witness_EncsymLooksUpTheSymbol : 31 < 32 ∧ 31 ≤ 31 := by decide

theorem witness_DecsymLooksUpTheRank : rankOf 0x55 = none ∧ rankOf 0x5A = some 31 := by decide +kernel

theorem witness_DecsymUndoesEncsym : 31 ≤ 31 := le_refl 31

theorem witness_EncodeSlicesThePaddedValue : ff10.length = 10 ∧ 25 < 26 := by decide

theorem valid_allZ : ValidString (Notation.chars allZ) := by unfold ValidString; decide +kernel

theorem valid_topUlid : ValidString (Notation.chars topUlid) ∧ Uppercase (Notation.chars topUlid) ∧
    FirstRankBelow8 (Notation.chars topUlid) := by
  unfold ValidString Uppercase FirstRankBelow8; decide +kernel

theorem valid_ulid : ValidString (Notation.chars ulid) ∧ Uppercase (Notation.chars ulid) ∧
    FirstRankBelow8 (Notation.chars ulid) := by
  unfold ValidString Uppercase FirstRankBelow8; decide +kernel

theorem valid_lowerUlid : ValidString (Notation.chars lowerUlid) ∧ FirstRankBelow8 (Notation.chars lowerUlid) := by
  unfold ValidString FirstRankBelow8; decide +kernel

theorem witness_DecodeDropsTheTopTwoBits : ValidString (Notation.chars allZ) := valid_allZ

theorem witness_TimestampIsTheFirstTenCharacters : ValidString (Notation.chars allZ) := valid_allZ

theorem witness_RoundTripOfEncodeAndDecode :
    ff10.length = 10 ∧ ValidString (Notation.chars topUlid) ∧ FirstRankBelow8 (Notation.chars topUlid) ∧
      Uppercase (Notation.chars topUlid) :=
  ⟨by decide, valid_topUlid.1, valid_topUlid.2.2, valid_topUlid.2.1⟩

/-- Two canonical strings that differ, and for the first clause one that is not canonical. -/
theorem witness_StringOrderIsNumericOrder :
    (ValidString (Notation.chars topUlid) ∧ ValidString (Notation.chars allZ) ∧ Uppercase (Notation.chars topUlid) ∧
        Uppercase (Notation.chars allZ) ∧ Notation.chars topUlid < Notation.chars allZ) ∧
      (ValidString (Notation.chars ulid) ∧ ValidString (Notation.chars topUlid) ∧ Uppercase (Notation.chars ulid) ∧
        Uppercase (Notation.chars topUlid) ∧ FirstRankBelow8 (Notation.chars ulid) ∧
        FirstRankBelow8 (Notation.chars topUlid) ∧ Notation.chars ulid < Notation.chars topUlid) :=
  ⟨⟨valid_topUlid.1, valid_allZ, valid_topUlid.2.1, by unfold Uppercase; decide +kernel, by decide +kernel⟩,
    valid_ulid.1, valid_topUlid.1, valid_ulid.2.1, valid_topUlid.2.1, valid_ulid.2.2, valid_topUlid.2.2,
    by decide +kernel⟩

/-- `Z...` and `7...`: ranks 31 and 7. -/
theorem witness_FirstRankDecodesModulo8 :
    let rest := List.replicate 25 (0x5A : Byte)
    ValidString (0x5A :: rest) ∧ ValidString (0x37 :: rest) ∧
      (rankOfValid 0x5A).toNat % 8 = (rankOfValid 0x37).toNat % 8 ∧ ff10.length = 10 := by
  unfold ValidString; decide +kernel

theorem validate_ulid : validate (withString ulid) = none := by decide +kernel

theorem validate_badUlid : validate (withString badUlid) = some .illegalSymbol := by decide +kernel

/-- Absent; lengths 25 and 27; an unmapped last character; a valid string. -/
theorem witness_ValidateReturnsTheFirstFailure :
    let present (s : State) := (s.get .strCtrl).toNat / 2 ^ 31 = 1
    let len (s : State) := (s.get .strCtrl).toNat % 2 ^ 16
    ¬ present State.reset ∧ (present (withRegs [(.strCtrl, 0x80000019)]) ∧ len (withRegs [(.strCtrl, 0x80000019)]) ≠ 26) ∧
      (present (withRegs [(.strCtrl, 0x8000001B)]) ∧ len (withRegs [(.strCtrl, 0x8000001B)]) ≠ 26) ∧
      (present (withString badUlid) ∧ len (withString badUlid) = 26 ∧
        ∃ i : Fin 26, rankOf (byteOf ((withString badUlid).get (.strIn ⟨i.val / 4, by omega⟩)) i.val) = none) ∧
      (present (withString ulid) ∧ len (withString ulid) = 26 ∧
        ∀ i : Fin 26, rankOf (byteOf ((withString ulid).get (.strIn ⟨i.val / 4, by omega⟩)) i.val) ≠ none) := by
  decide +kernel

/-- The largest timestamp and the first that is out of range; absent entropy; 9 bytes. -/
theorem witness_GenerateEncodesItsOperands :
    let ts (s : State) := (s.get .tsInHi).toNat * 2 ^ 32 + (s.get .tsInLo).toNat
    let present (s : State) := (s.get .entCtrl).toNat / 2 ^ 31 = 1
    let len (s : State) := (s.get .entCtrl).toNat % 2 ^ 16
    let top := withParts 0x0000FFFF 0xFFFFFFFF
    2 ^ 48 ≤ ts (withParts 0x00010000 0 ff10) ∧ (ts State.reset < 2 ^ 48 ∧ ¬ present State.reset) ∧
      (ts (top (ff10.take 9)) < 2 ^ 48 ∧ present (top (ff10.take 9)) ∧ len (top (ff10.take 9)) ≠ 10) ∧
      (ts (top ff10) < 2 ^ 48 ∧ present (top ff10) ∧ len (top ff10) = 10) ∧ 25 < 26 := by decide +kernel

/-- A pair of draws for each case. -/
theorem witness_RandomEncodesItsDraws :
    (withDraw 5 .fail).draws = ⟨5, .fail⟩ :: [] ∧
      2 ^ 48 ≤ (0x0001000000000000 : BitVec 64).toNat ∧
      ((0x0000FFFFFFFFFFFF : BitVec 64).toNat < 2 ^ 48 ∧ (ff10.take 9).length ≠ 10) ∧
      ((0x0000FFFFFFFFFFFF : BitVec 64).toNat < 2 ^ 48 ∧ ff10.length = 10) ∧
      (withDraw 0x0000FFFFFFFFFFFF (.bytes ff10)).draws = ⟨0x0000FFFFFFFFFFFF, .bytes ff10⟩ :: [] := by decide +kernel

theorem witness_RandomRunsWithoutSuppliedDraws : State.reset.draws = [] := rfl

theorem witness_ParseFoldsTheString :
    validate (withString badUlid) = some .illegalSymbol ∧ validate (withString ulid) = none ∧
      Uppercase (withString ulid).strChars :=
  ⟨validate_badUlid, validate_ulid, by unfold Uppercase; decide +kernel⟩

theorem witness_GettsExtractsTheTimestamp :
    validate (withString badUlid) = some .illegalSymbol ∧ validate (withString ulid) = none :=
  ⟨validate_badUlid, validate_ulid⟩

theorem witness_GetentExtractsTheEntropy :
    validate (withString badUlid) = some .illegalSymbol ∧ validate (withString ulid) = none :=
  ⟨validate_badUlid, validate_ulid⟩

theorem witness_DecodeIsGettsAndGetentTogether :
    validate (withString badUlid) = some .illegalSymbol ∧ validate (withString ulid) = none :=
  ⟨validate_badUlid, validate_ulid⟩

theorem witness_StringWritingCommandsFrame :
    (∃ t, exec .generate (withParts 0 1 ff10) = .next t) ∧ (∃ t, exec .random (withDraw 5 (.bytes ff10)) = .next t) ∧
      ∃ t, exec .parse (withString ulid) = .next t := ⟨⟨_, rfl⟩, ⟨_, rfl⟩, ⟨_, rfl⟩⟩

theorem witness_DecodingCommandsFrame :
    (∃ t, exec .getts (withString ulid) = .next t) ∧ (∃ t, exec .getent (withString ulid) = .next t) ∧
      ∃ t, exec .decode (withString ulid) = .next t := ⟨⟨_, rfl⟩, ⟨_, rfl⟩, ⟨_, rfl⟩⟩

theorem witness_LookupCommandsFrame :
    (∃ t, exec (.encsym 31) State.reset = .next t) ∧ (∃ t, exec (.decsym 0x5A) State.reset = .next t) ∧
      (State.reset.get .symOut).extractLsb' 8 24 = 0 := ⟨⟨_, rfl⟩, ⟨_, rfl⟩, by decide⟩

theorem witness_IsvalidFrame : ∃ t, exec .isvalid (withString ulid) = .next t := ⟨_, rfl⟩

/-- An ISVALID that sets VALID, and a reset that clears it. -/
theorem witness_OnlyIsvalidAndResetChangeValid :
    (∃ t, Instr.parse ≠ .isvalid ∧ exec .parse (withString ulid) = .next t) ∧
      (let s := (withString ulid).issue (.write 0x00 32 0x00000004);
        step s = .next (after (step s)) ∧ (after (step s)).valid ≠ s.valid) ∧
      (let s := (State.reset.set .status 0x100).issue .assertReset;
        step s = .next (after (step s)) ∧ (after (step s)).valid ≠ s.valid) :=
  ⟨⟨_, by decide, rfl⟩, ⟨eq_next (by decide +kernel), by decide +kernel⟩, eq_next (by decide +kernel), by decide +kernel⟩

theorem witness_NoCommandWritesAnOperand :
    ∃ t, exec .generate (withParts 0 1 ff10) = .next t ∧ Reg.writable .tsInLo = true ∧ Instr.generate ≠ .random :=
  ⟨_, rfl, by decide, by decide⟩

/-- A command other than ISVALID in a state where it succeeds and in one where it fails. -/
theorem witness_StrictCommandsWriteAllOrNothing :
    Instr.decode ≠ .isvalid ∧ (after (exec .decode (withString ulid))).err = 0 ∧
      (after (exec .decode (withString badUlid))).err ≠ 0 := by decide +kernel

/-- A word that selects no command, and a command for each error its list has (L2-4). -/
theorem witness_EachCommandRaisesOnlyItsErrors :
    (∃ t, exec .generate (withParts 0x80000000 0 ff10) = .next t) ∧
      (∀ i, decode 0x00000000 ≠ .instr i) ∧ ∃ t, execWord 0x00000000 State.reset = .next t :=
  ⟨⟨_, rfl⟩, fun i => by rw [show decode 0x00000000 = .rejected .unassignedOpcode by decide]; simp, _, rfl⟩

/-- Two states that differ outside the operands. -/
theorem witness_CommandsAreFunctionsOfTheirOperands :
    let s2 := (withString ulid).set .symOut 7
    (∀ r ∈ operandRegs .getts, (withString ulid).get r = s2.get r) ∧ Instr.getts ≠ .random ∧
      (let u2 := { withDraw 5 .fail with reads := [1] };
        (∀ r ∈ operandRegs .random, (withDraw 5 .fail).get r = u2.get r) ∧
          (withDraw 5 .fail).draws = ⟨5, .fail⟩ :: [] ∧ u2.draws = ⟨5, .fail⟩ :: []) := by decide +kernel

theorem witness_RepeatedCommandWritesTheSame :
    Instr.generate ≠ .random ∧ ∃ t, exec .generate (withParts 0 1 ff10) = .next t := ⟨by decide, _, rfl⟩

/-- A state with every result register in use meets the invariant, and a step from it answers a next state. -/
theorem witness_StepKeepsTheInvariant :
    let s := (command (withString ulid) 7).issue (.write 0x1C 32 0xFFFFFFFF)
    s.Inv ∧ step s = .next (after (step s)) :=
  ⟨by unfold State.Inv; decide +kernel, eq_next (by decide +kernel)⟩

theorem witness_DisciplinedHostNeverFaults : (withHost (Notation.cpstr ++ Notation.rdts)).HostDisciplined := by
  unfold State.HostDisciplined; decide +kernel

theorem witness_ValidityIsThePreconditionOfDecoding :
    validate (withString ulid) = none ∧ validate (withString badUlid) = some .illegalSymbol :=
  ⟨validate_ulid, validate_badUlid⟩

/-- LEN 25 with different characters; LEN 26 with the same membership; LEN 26 and another case. -/
theorem witness_ValidityDependsOnMembershipOnly :
    (let s1 := (withString ulid).set .strCtrl 0x80000019;
      let s2 := (withString badUlid).set .strCtrl 0x80000019
      s1.get .strCtrl = s2.get .strCtrl ∧ (s1.get .strCtrl).toNat % 2 ^ 16 ≠ 26) ∧
      ((withString ulid).get .strCtrl = (withString allZ).get .strCtrl ∧
        ∀ i : Fin 26, (rankOf ((withString ulid).strChars.getD i.val 0)).isSome =
          (rankOf ((withString allZ).strChars.getD i.val 0)).isSome) ∧
      ((withString ulid).get .strCtrl = (withString lowerUlid).get .strCtrl ∧
        ∀ i : Fin 26, let a := (withString ulid).strChars.getD i.val 0
          let b := (withString lowerUlid).strChars.getD i.val 0;
          a = b ∨ (0x41 ≤ a.toNat ∧ a.toNat ≤ 0x5A ∧ b = a + 0x20) ∨
            (0x41 ≤ b.toNat ∧ b.toNat ≤ 0x5A ∧ a = b + 0x20)) := by decide +kernel

theorem witness_GeneratedStringsAreCanonical :
    (let o := exec .generate (withParts 0x0000FFFF 0xFFFFFFFF ff10);
      o = .next (after o) ∧ (after o).err = 0) ∧
      (let o := exec .random (withDraw 0 (.bytes ff10));
        o = .next (after o) ∧ (after o).err = 0) :=
  ⟨⟨eq_next (by decide +kernel), by decide +kernel⟩, eq_next (by decide +kernel), by decide +kernel⟩

/-- Two clocks one apart, the earlier with the larger entropy (L1-7). -/
theorem witness_RandomStringsSortByClock :
    let s1 := withDraw 1591603200000 (.bytes ff10)
    let s2 := withDraw 1591603200001 (.bytes (List.replicate 10 0))
    s1.draws = ⟨1591603200000, .bytes ff10⟩ :: [] ∧
      s2.draws = ⟨1591603200001, .bytes (List.replicate 10 0)⟩ :: [] ∧
      exec .random s1 = .next (after (exec .random s1)) ∧ exec .random s2 = .next (after (exec .random s2)) ∧
      (after (exec .random s1)).err = 0 ∧ (after (exec .random s2)).err = 0 ∧
      (1591603200000 : BitVec 64).toNat < (1591603200001 : BitVec 64).toNat :=
  ⟨rfl, rfl, eq_next (by decide +kernel), eq_next (by decide +kernel), by decide +kernel, by decide +kernel, by decide⟩

/-- A lowercase string, and PARSE's output in the operand again. -/
theorem witness_ParseOutputIsValidAndStable :
    let s := withString lowerUlid
    let t := after (exec .parse s)
    let u := withString ulid
    exec .parse s = .next t ∧ validate s = none ∧ u.strChars = t.strOutChars ∧ validate u = none ∧
      exec .parse u = .next (after (exec .parse u)) :=
  ⟨eq_next (by decide +kernel), by decide +kernel, by decide +kernel, by decide +kernel, eq_next (by decide +kernel)⟩

/-- L1-6, with the results copied into GENERATE's operands. -/
theorem witness_RegenerateGivesTheFold :
    let s := withString lowerUlid
    let t := after (exec .getts s)
    let u := after (exec .getent t)
    let v := withParts 0x00000172 0x92F18000 ff10
    validate s = none ∧ FirstRankBelow8 s.strChars ∧ exec .getts s = .next t ∧ exec .getent t = .next u ∧
      v.get .tsInLo = u.get .tsOutLo ∧ v.get .tsInHi = u.get .tsOutHi ∧
      (∀ k, v.get (.entIn k) = u.get (.entOut k)) ∧ v.get .entCtrl = 0x8000000A :=
  ⟨by decide +kernel, by unfold FirstRankBelow8; decide +kernel, eq_next (by decide +kernel),
    eq_next (by decide +kernel), by decide +kernel, by decide +kernel, by decide +kernel, by decide +kernel⟩

theorem witness_CommandsRightAfterReset : 31 ≤ 31 ∧ (rankOf 0x30).isSome := by decide +kernel

end Sys2Proof.Tests
end

section
/-! The registers and the steps of the block (10_state.md): what a step can do to the register file, the invariant that
every step keeps, the access rules of the register window, and VALID. -/

namespace Sys2Proof.Machine

/-! ### The address map and the register file -/

theorem offset_of_regAt {off : Nat} {r : Reg} (h : regAt off = some r) : off = r.offset :=
  (beq_iff_eq.mp (List.find?_some (p := fun r : Reg => r.offset == off) h)).symm

theorem width_of_admitted {off width : Nat} (h : admitted off width = true) : width = 32 := by
  simp only [admitted, Bool.and_eq_true, beq_iff_eq] at h
  exact h.1.1

theorem State.get_of_regs_eq {s t : State} (h : t.regs = s.regs) (r : Reg) : t.get r = s.get r :=
  congrArg (RegFile.get · r) h

theorem ne_status_of_writable {r : Reg} (h : r.writable = true) : r ≠ .status := by
  rintro rfl
  exact absurd h (by decide)

@[simp] theorem State.get_reset (r : Reg) : State.reset.get r = 0 := RegFile.get_reset r

theorem regReadValue_cmd (s : State) : regReadValue s 0x00 = s.get .cmd :=
  (regReadValue_offset s .cmd).trans (and_cmd_mask _)

/-! ### What a step can do to the registers -/

/-- The ways a step goes from `s` to `t`, as far as registers are concerned: they are kept, an RW register other than
CMD is written (10_state.md R34), a word is written to CMD and executed (20_memory.md R73), or all are reset
(70_reset_and_hazards.md R280). -/
inductive StepEffect (s t : State) : Prop
  | keeps (hregs : t.regs = s.regs)
  | stores (r : Reg) (v : Word) (rest : List HostAction) (hhost : s.host = .write r.offset 32 v :: rest)
      (hcmd : r ≠ .cmd) (hw : r.writable = true) (ht : t = State.set { s with host := rest } r (v &&& r.mask))
  | executes (w : Word) (rest : List HostAction) (hhost : s.host = .write 0x00 32 w :: rest)
      (hexec : execWord w { s.set .cmd w with host := rest } = .next t)
  | resets (rest : List HostAction) (hhost : s.host = .assertReset :: rest) (hregs : t.regs = RegFile.reset)

/-- An access that a step performs is one the window admits. -/
theorem admitted_of_step_read {s t : State} {off width : Nat} {rest : List HostAction}
    (hh : s.host = .read off width :: rest) (h : step s = .next t) : admitted off width = true := by
  rw [step_of_host hh, perform, hostRead] at h
  by_contra ha
  simp [ha] at h

theorem admitted_of_step_write {s t : State} {off width : Nat} {v : Word} {rest : List HostAction}
    (hh : s.host = .write off width v :: rest) (h : step s = .next t) : admitted off width = true := by
  rw [step_of_host hh, perform, hostWrite] at h
  by_contra ha
  simp [ha] at h

/-- A host read has no effect on the block (20_memory.md R73). -/
theorem step_read_regs {s t : State} {off width : Nat} {rest : List HostAction}
    (hh : s.host = .read off width :: rest) (h : step s = .next t) : t.regs = s.regs := by
  have ha := admitted_of_step_read hh h
  obtain rfl := width_of_admitted ha
  cases (step_read hh ha).symm.trans h
  rfl

/-- A host write to an RO register is ignored (10_state.md R34). -/
theorem step_write_readOnly_regs {s t : State} {r : Reg} {v : Word} {rest : List HostAction}
    (hh : s.host = .write r.offset 32 v :: rest) (hr : r.writable = false) (h : step s = .next t) :
    t.regs = s.regs := by
  have hcmd : r ≠ .cmd := by
    rintro rfl
    exact absurd hr (by decide)
  rw [step_write hh (admitted_offset r) (offset_ne_zero hcmd), regStore_offset, hr] at h
  cases h
  rfl

/-- A host write to a reserved offset is ignored (10_state.md R34). -/
theorem step_write_reserved_regs {s t : State} {off : Nat} {v : Word} {rest : List HostAction}
    (hh : s.host = .write off 32 v :: rest) (h0 : off ≠ 0) (hr : regAt off = none) (h : step s = .next t) :
    t.regs = s.regs := by
  rw [step_write hh (admitted_of_step_write hh h) h0, regStore_reserved _ hr] at h
  cases h
  rfl

theorem step_write_effect {s t : State} {off width : Nat} {v : Word} {rest : List HostAction}
    (hh : s.host = .write off width v :: rest) (h : step s = .next t) : StepEffect s t := by
  obtain rfl := width_of_admitted (admitted_of_step_write hh h)
  by_cases h0 : off = 0
  · subst h0
    exact .executes v rest hh ((step_write_cmd hh).symm.trans h)
  cases hr : regAt off with
  | none => exact .keeps (step_write_reserved_regs hh h0 hr h)
  | some r =>
    obtain rfl := offset_of_regAt hr
    cases hw : r.writable with
    | false => exact .keeps (step_write_readOnly_regs hh hw h)
    | true =>
      have hcmd : r ≠ .cmd := fun hc => h0 (congrArg Reg.offset hc)
      exact .stores r v rest hh hcmd hw (Host.Outcome.next.inj (h.symm.trans (step_write_reg hh hcmd hw)))

/-- What any step does to the registers. -/
theorem step_effect {s t : State} (h : step s = .next t) : StepEffect s t := by
  cases hh : s.host with
  | nil =>
    simp only [step, hh] at h
    cases h
    exact .keeps rfl
  | cons a rest =>
    have hp := (step_of_host hh).symm.trans h
    cases a with
    | read off width => exact .keeps (step_read_regs hh h)
    | write off width v => exact step_write_effect hh h
    | copy dst src => cases hp; exact .keeps rfl
    | branch r mask value nThen nElse => cases hp; exact .keeps rfl
    | halt => cases hp; exact .keeps rfl
    | assertReset => cases hp; exact .resets rest hh rfl

/-- What the execution of a word does: the command it selects, or ILLEGAL_COMMAND (30_encoding.md R101). -/
theorem execWord_cases {w : Word} {s t : State} (h : execWord w s = .next t) :
    (∃ i, decode w = .instr i ∧ exec i s = .next t) ∨ t = raise .illegalCommand s := by
  unfold execWord at h
  cases hd : decode w with
  | instr i =>
    rw [hd] at h
    exact .inl ⟨i, rfl, h⟩
  | rejected r =>
    rw [hd] at h
    cases h
    exact .inr rfl

/-! ### What a command leaves -/

theorem endedIn_of_exec {i : Instr} {s t : State} (h : exec i s = .next t) : EndedIn i (inputOf i s) t := by
  obtain ⟨u, hu, hend⟩ := exec_result i s
  cases hu.symm.trans h
  exact hend

/-- The registers that are neither STATUS nor a result register of the command keep their values. -/
theorem exec_get_of_not_result {i : Instr} {s t : State} {r : Reg} (h : exec i s = .next t) (hs : r ≠ .status)
    (hr : r ∉ resultRegs i) : t.get r = s.get r := by
  rw [← get_inputOf i s r]
  rcases endedIn_of_exec h with ⟨e, rfl⟩ | ⟨u, rfl, -, hkeep, hvalid⟩
  · exact get_raise_of_ne e _ hs
  · rw [get_succeed_of_ne u hs]
    by_cases hi : i = .isvalid
    · rw [hvalid hi, State.get_setValid, if_neg hs]
    · exact (hkeep hi).1.1 r hs hr

theorem exec_cmd {i : Instr} {s t : State} (h : exec i s = .next t) : t.get .cmd = s.get .cmd :=
  exec_get_of_not_result h (by decide) (by cases i <;> simp [resultRegs, strOutRegs, tsOutRegs, entOutRegs])

/-- STATUS.VALID belongs to ISVALID (10_state.md R45). -/
theorem exec_valid {i : Instr} {s t : State} (hi : i ≠ .isvalid) (h : exec i s = .next t) : t.valid = s.valid := by
  have hin : (inputOf i s).valid = s.valid := congrArg statusValid (get_inputOf i s .status)
  rw [← hin]
  rcases endedIn_of_exec h with ⟨e, rfl⟩ | ⟨u, rfl, -, hkeep, -⟩
  · exact valid_raise e _
  · exact (valid_succeed u).trans (congrArg statusValid (hkeep hi).2)

theorem execWord_cmd {w : Word} {s t : State} (h : execWord w s = .next t) : t.get .cmd = s.get .cmd := by
  rcases execWord_cases h with ⟨i, -, hi⟩ | rfl
  · exact exec_cmd hi
  · exact get_raise_of_ne _ _ (by decide)

/-! ### Words whose reserved bits are 0 -/

/-- A word has no bit outside a mask exactly when each of its bits is one of the mask's. -/
theorem and_not_eq_zero_iff (v m : Word) : v &&& ~~~m = 0 ↔ ∀ i < 32, v.getLsbD i = true → m.getLsbD i = true := by
  constructor
  · intro h i hi hv
    have hbit := congrArg (BitVec.getLsbD · i) h
    simpa [hv, hi] using hbit
  · intro h
    refine BitVec.eq_of_getLsbD_eq fun i hi => ?_
    have hbit := h i hi
    cases hv : v.getLsbD i <;> simp_all

theorem and_and_not (v m : Word) : v &&& m &&& ~~~m = 0 := by simp [BitVec.and_assoc]

/-- A zero-extended value lies within a mask that holds its bits. -/
theorem setWidth_and_not {n : Nat} (x : BitVec n) {m : Word} (hm : ∀ i < n, m.getLsbD i = true) :
    x.setWidth 32 &&& ~~~m = 0 := by
  rw [and_not_eq_zero_iff]
  intro i _ hi
  refine hm i (Nat.lt_of_not_le fun hn => ?_)
  simp [BitVec.getLsbD_of_ge x i hn] at hi

/-- The register that holds only two bytes of a sequence has no bit in its hardwired half (10_state.md R41, R42). -/
theorem packedWord_and_not {b : List Byte} {k : Nat} (hb : b.length ≤ 4 * k + 2) :
    packedWord b k &&& ~~~0xFFFF0000 = 0 := by
  rw [and_not_eq_zero_iff]
  intro i hi hv
  have hhigh : ∀ i < 32, 16 ≤ i → (0xFFFF0000 : Word).getLsbD i = true := by decide
  refine hhigh i hi (Nat.le_of_not_lt fun hlow => ?_)
  have hbit := congrArg (BitVec.getLsbD · i) (packedWord_low_zero b k hb)
  simp [hlow, hv] at hbit

/-- Writing ERR or VALID leaves STATUS within the bits of 10_state.md R45. -/
theorem statusWithErr_and_not {w : Word} (h : w &&& ~~~Reg.status.mask = 0) (c : BitVec 4) :
    statusWithErr w c &&& ~~~Reg.status.mask = 0 := by
  rw [and_not_eq_zero_iff] at h ⊢
  intro i hi hv
  rw [getLsbD_statusWithErr] at hv
  have herr : ∀ i < 4, Reg.status.mask.getLsbD i = true := by decide
  split at hv
  next hlow => exact herr i hlow
  next => exact h i hi hv

theorem statusWithValid_and_not {w : Word} (h : w &&& ~~~Reg.status.mask = 0) (v : Bool) :
    statusWithValid w v &&& ~~~Reg.status.mask = 0 := by
  rw [and_not_eq_zero_iff] at h ⊢
  intro i hi hv
  rw [getLsbD_statusWithValid] at hv
  split at hv
  next h8 => subst h8; decide
  next => exact h i hi hv

/-! ### The invariant -/

/-- The first half of the invariant: every reserved or hardwired bit is 0 (10_state.md R34). -/
def State.ReservedZero (s : State) : Prop := ∀ r : Reg, s.get r &&& ~~~r.mask = 0

theorem State.inv_iff (s : State) : s.Inv ↔ s.ReservedZero ∧ s.err.toNat ≤ 6 := Iff.rfl

theorem State.ReservedZero.set {s : State} (hs : s.ReservedZero) {r : Reg} {v : Word} (hv : v &&& ~~~r.mask = 0) :
    (s.set r v).ReservedZero := by
  intro r'
  rw [State.get_set]
  split
  next heq => rw [heq]; exact hv
  next => exact hs r'

theorem State.ReservedZero.setErr {s : State} (hs : s.ReservedZero) (c : BitVec 4) : (s.setErr c).ReservedZero :=
  hs.set (statusWithErr_and_not (hs .status) c)

theorem State.ReservedZero.setValid {s : State} (hs : s.ReservedZero) (v : Bool) : (s.setValid v).ReservedZero :=
  hs.set (statusWithValid_and_not (hs .status) v)

theorem State.ReservedZero.writeTs {s : State} (hs : s.ReservedZero) (t : BitVec 48) : (s.writeTs t).ReservedZero :=
  (hs.set (r := .tsOutLo) (by simp [Reg.mask])).set (r := .tsOutHi) (setWidth_and_not _ (by decide))

theorem State.ReservedZero.writeEnt {s : State} (hs : s.ReservedZero) {e : List Byte} (he : e.length = 10) :
    (s.writeEnt e).ReservedZero :=
  ((hs.set (r := .entOut 0) (by simp [Reg.mask])).set (r := .entOut 1) (by simp [Reg.mask])).set (r := .entOut 2)
    (packedWord_and_not (by omega))

theorem State.ReservedZero.writeStr {s : State} (hs : s.ReservedZero) {b : List Byte} (hb : b.length = 26) :
    (s.writeStr b).ReservedZero := by
  intro r
  rw [State.get_writeStr]
  cases r with
  | strOut k =>
    by_cases hk : k = 6
    · subst hk
      exact packedWord_and_not (by simp [hb])
    · simp [Reg.mask, hk]
  | _ => exact hs _

/-- However a command ends, STATUS.ERR is one of the codes 0..6 (60_exceptions.md R250). -/
theorem State.ReservedZero.inv_raise {s : State} (hs : s.ReservedZero) (e : ErrorKind) : (raise e s).Inv :=
  (State.inv_iff _).mpr ⟨hs.setErr e.code, by rw [err_raise]; exact e.code_le⟩

theorem State.ReservedZero.inv_succeed {s : State} (hs : s.ReservedZero) : (succeed s).Inv :=
  (State.inv_iff _).mpr ⟨hs.setErr 0, by rw [err_succeed]; decide⟩

/-- A command on the string operand, which ends in `Validate`'s error or in its own success. -/
theorem State.ReservedZero.inv_onString {s u : State} (hs : s.ReservedZero) (hu : u.ReservedZero) :
    State.Inv (match validate s with | some e => raise e s | none => succeed u) := by
  cases validate s with
  | some e => exact hs.inv_raise e
  | none => exact hu.inv_succeed

theorem State.ReservedZero.inv_randomResult {s : State} (hs : s.ReservedZero) (d : Draw) :
    (randomResult d s).Inv := by
  unfold randomResult
  split
  · exact hs.inv_raise _
  split
  · exact hs.inv_raise _
  split
  · exact hs.inv_raise _
  exact (hs.writeStr (encodeStr_length _ _)).inv_succeed

/-- A command that starts with the reserved bits 0 ends within the invariant, whatever ERR was. -/
theorem State.ReservedZero.inv_exec {s : State} (hs : s.ReservedZero) (i : Instr) :
    ∃ t, exec i s = .next t ∧ t.Inv := by
  cases i with
  | generate =>
    refine ⟨_, rfl, ?_⟩
    split
    · exact hs.inv_raise _
    split
    · exact hs.inv_raise _
    split
    · exact hs.inv_raise _
    exact (hs.writeStr (encodeStr_length _ _)).inv_succeed
  | random => exact ⟨_, rfl, State.ReservedZero.inv_randomResult (s := takeDraw s) hs _⟩
  | parse => exact ⟨_, rfl, hs.inv_onString (hs.writeStr (by simp))⟩
  | isvalid => exact ⟨_, rfl, (hs.setValid _).inv_succeed⟩
  | getts => exact ⟨_, rfl, hs.inv_onString (hs.writeTs _)⟩
  | getent => exact ⟨_, rfl, hs.inv_onString (hs.writeEnt (entropyOf_length _))⟩
  | decode => exact ⟨_, rfl, hs.inv_onString ((hs.writeTs _).writeEnt (entropyOf_length _))⟩
  | encsym rank =>
    refine ⟨_, rfl, ?_⟩
    split
    · exact hs.inv_raise _
    exact (hs.set (setWidth_and_not _ (by decide))).inv_succeed
  | decsym char =>
    refine ⟨_, rfl, ?_⟩
    split
    · exact hs.inv_raise _
    exact (hs.set (setWidth_and_not _ (by decide))).inv_succeed

theorem State.ReservedZero.inv_execWord {s t : State} {w : Word} (hs : s.ReservedZero) (h : execWord w s = .next t) :
    t.Inv := by
  rcases execWord_cases h with ⟨i, -, hi⟩ | rfl
  · obtain ⟨u, hu, hinv⟩ := hs.inv_exec i
    cases hu.symm.trans hi
    exact hinv
  · exact hs.inv_raise _

/-- The invariant is about registers only. -/
theorem State.Inv.of_get_eq {s t : State} (hs : s.Inv) (h : ∀ r, t.get r = s.get r) : t.Inv := by
  obtain ⟨hres, herr⟩ := hs
  exact ⟨fun r => by rw [h]; exact hres r, by rw [State.err, h]; exact herr⟩

/-- A host store keeps the invariant: no host store reaches STATUS (10_state.md R33). -/
theorem State.Inv.set {s : State} (hs : s.Inv) {r : Reg} (hr : r ≠ .status) (v : Word) :
    (s.set r (v &&& r.mask)).Inv := by
  obtain ⟨hres, herr⟩ := hs
  refine ⟨State.ReservedZero.set hres (and_and_not v r.mask), ?_⟩
  rw [State.err, State.get_set, if_neg hr.symm]
  exact herr

theorem inv_reset : State.reset.Inv := by
  refine ⟨fun r => ?_, ?_⟩
  · simp
  · rw [State.err, State.get_reset]
    decide

theorem step_keeps_inv {s t : State} (hs : s.Inv) (h : step s = .next t) : t.Inv := by
  cases step_effect h with
  | keeps hregs => exact hs.of_get_eq (State.get_of_regs_eq hregs)
  | stores r v rest _ _ hw ht =>
    rw [ht]
    exact State.Inv.set (s := { s with host := rest }) hs (ne_status_of_writable hw) v
  | executes w rest _ hexec =>
    obtain ⟨hres, -⟩ := hs
    have hstored : (s.set .cmd w).ReservedZero := State.ReservedZero.set hres (by simp [Reg.mask])
    exact State.ReservedZero.inv_execWord (s := { s.set .cmd w with host := rest }) hstored hexec
  | resets rest _ hregs => exact inv_reset.of_get_eq (State.get_of_regs_eq hregs)

/-- Settles O51: each of a step's four effects on the registers keeps the invariant. -/
theorem stepKeepsTheInvariant : Obligations.StepKeepsTheInvariant := fun _ _ hs h => step_keeps_inv hs h

/-- Settles O52: every register is 0, and 0 has no reserved bit. -/
theorem resetMeetsTheInvariant : Obligations.ResetMeetsTheInvariant := inv_reset

end Sys2Proof.Machine
end

section
/-! The access rules of the register window (10_state.md R34, R37, R44, R49), and the one command that writes VALID
(R45). -/

namespace Sys2Proof.Machine

open Sys2Proof.Laws (formatC_fields decodeOp_cases)

/-! ### The word of a command -/

theorem withoutArg_eq_instr_iff (w : Word) (i j : Instr) :
    withoutArg w j = .instr i ↔ argField w = 0 ∧ j = i := by
  unfold withoutArg
  split <;> simp_all

/-- The word of a command without an immediate, put together from its opcode alone. -/
theorem encode_of_withoutArg {w : Word} {i j : Instr} {op : BitVec 4} (hfields : formatC op (argField w) = w)
    (hj : encode j = formatC op 0) (h : withoutArg w j = .instr i) : encode i = w := by
  obtain ⟨harg, rfl⟩ := (withoutArg_eq_instr_iff w i j).mp h
  rw [hj, ← harg, hfields]

/-- A command is selected by its own word only (30_encoding.md R101). -/
theorem encode_of_decode {w : Word} {i : Instr} (h : decode w = .instr i) : encode i = w := by
  unfold decode at h
  split at h
  · cases h
  next hrsv =>
  obtain ⟨h0, h1⟩ := not_or.mp hrsv
  have hfields (op : BitVec 4) (hop : (opField w).toNat = op.toNat) : formatC op (argField w) = w := by
    rw [← BitVec.eq_of_toNat_eq hop]
    exact formatC_fields (not_not.mp h0) (not_not.mp h1)
  rcases decodeOp_cases w with ⟨hop, hd⟩ | ⟨hop, hd⟩ | ⟨hop, hd⟩ | ⟨hop, hd⟩ | ⟨hop, hd⟩ | ⟨hop, hd⟩ | ⟨hop, hd⟩ |
    ⟨hop, hd⟩ | ⟨hop, hd⟩ | ⟨-, hd⟩ <;> rw [hd] at h
  · exact encode_of_withoutArg (hfields 0x1 hop) rfl h
  · exact encode_of_withoutArg (hfields 0x2 hop) rfl h
  · exact encode_of_withoutArg (hfields 0x3 hop) rfl h
  · exact encode_of_withoutArg (hfields 0x4 hop) rfl h
  · exact encode_of_withoutArg (hfields 0x5 hop) rfl h
  · exact encode_of_withoutArg (hfields 0x6 hop) rfl h
  · exact encode_of_withoutArg (hfields 0x7 hop) rfl h
  · cases h
    rw [encode, BitVec.ofNat_toNat, BitVec.setWidth_eq]
    exact hfields 0x8 hop
  · cases h
    exact hfields 0x9 hop
  · cases h

/-! ### VALID -/

theorem State.valid_of_regs_eq {s t : State} (h : t.regs = s.regs) : t.valid = s.valid :=
  congrArg statusValid (State.get_of_regs_eq h .status)

theorem State.valid_set_of_ne {r : Reg} (hr : r ≠ .status) (s : State) (v : Word) : (s.set r v).valid = s.valid := by
  rw [State.valid, State.get_set, if_neg hr.symm, State.valid]

/-- Only ISVALID's word, executed, changes VALID. -/
theorem execWord_valid {w : Word} {s t : State} (hw : w ≠ 0x00000004) (h : execWord w s = .next t) :
    t.valid = s.valid := by
  rcases execWord_cases h with ⟨i, hdec, hexec⟩ | rfl
  · refine exec_valid (fun hi => hw ?_) hexec
    rw [← encode_of_decode hdec, hi]
    decide
  · exact valid_raise _ s

theorem step_changes_valid {s t : State} (h : step s = .next t) (hne : t.valid ≠ s.valid) :
    (∃ rest, s.host = .write 0x00 32 0x00000004 :: rest) ∨ ∃ rest, s.host = .assertReset :: rest := by
  cases step_effect h with
  | keeps hregs => exact absurd (State.valid_of_regs_eq hregs) hne
  | stores r v rest _ _ hw ht =>
    subst ht
    exact absurd (State.valid_set_of_ne (ne_status_of_writable hw) { s with host := rest } _) hne
  | executes w rest hhost hexec =>
    by_cases hw : w = 0x00000004
    · exact .inl ⟨rest, hw ▸ hhost⟩
    · have hstored : (s.set .cmd w).valid = s.valid := State.valid_set_of_ne (by decide) s w
      exact absurd ((execWord_valid hw hexec).trans hstored) hne
  | resets rest hhost _ => exact .inr ⟨rest, hhost⟩

/-- Settles O45: a command other than ISVALID ends in an error or writes only its result registers, and a step that
executes no word writes no bit of STATUS unless it resets. -/
theorem onlyIsvalidAndResetChangeValid : Obligations.OnlyIsvalidAndResetChangeValid :=
  ⟨fun _ _ _ hi h => exec_valid hi h, fun _ _ h hne => step_changes_valid h hne⟩

/-! ### The access rules -/

/-- A read returns the register's bits with the reserved ones 0 (10_state.md R34). -/
theorem step_read_reg {s : State} {r : Reg} {rest : List HostAction} (hh : s.host = .read r.offset 32 :: rest) :
    step s = .next { s with host := rest, reads := s.reads ++ [s.get r &&& r.mask] } := by
  rw [step_read hh (admitted_offset r), regReadValue_offset]

theorem step_read_reserved {s : State} {off : Nat} {rest : List HostAction}
    (hoff : off = 0x74 ∨ off = 0x78 ∨ off = 0x7C) (hh : s.host = .read off 32 :: rest) :
    step s = .next { s with host := rest, reads := s.reads ++ [0] } := by
  obtain ⟨ha, hr⟩ := (reserved_iff off).mpr hoff
  rw [step_read hh ha, regReadValue_reserved s hr]

/-- Settles O10: the masks are numbers, and each rule is what one access of the window does. -/
theorem accessRulesHoldForEveryRegister : Obligations.AccessRulesHoldForEveryRegister := by
  refine ⟨by decide, ?_, ?_, fun s t r v rest hh hr h => step_write_readOnly_regs hh hr h, ?_,
    fun s t off width rest hh h => step_read_regs hh h⟩
  · intro s t r rest hh h
    cases (step_read_reg hh).symm.trans h
    exact ⟨_, rfl, and_and_not _ _, by rw [BitVec.and_assoc, BitVec.and_self]⟩
  · intro s t r v rest hh hcmd hw h
    cases (step_write_reg hh hcmd hw).symm.trans h
    refine ⟨?_, fun r' hne => ?_⟩
    · rw [State.get_set, if_pos rfl]
      exact and_and_not v r.mask
    · rw [State.get_set, if_neg hne]
      rfl
  · intro s t off rest hoff h
    obtain ⟨-, hnone⟩ := (reserved_iff off).mpr hoff
    refine ⟨fun hh => ?_, fun v hh => step_write_reserved_regs hh (by omega) hnone h⟩
    cases (step_read_reserved hoff hh).symm.trans h
    rfl

/-- Settles O11: the write stores `v` without its reserved bits and the read returns what is stored. -/
theorem readAfterWriteGivesTheValueWritten : Obligations.ReadAfterWriteGivesTheValueWritten := by
  intro s r v rest hw hcmd hh
  have hwrite := step_write_reg hh hcmd hw
  refine ⟨_, _, hwrite, step_read_reg rfl, ?_, rfl, fun r' hne => ?_⟩
  · rw [State.get_set, if_pos rfl, BitVec.and_assoc, BitVec.and_self]
    rfl
  · exact (State.get_set _ r r' _).trans (if_neg hne)

/-- Settles O12: the write stores the word before it is executed, no command has CMD among its results, and CMD has no
reserved bit. -/
theorem cmdHoldsTheLastWordWritten : Obligations.CmdHoldsTheLastWordWritten := by
  refine ⟨fun s w rest hh => ?_, fun i s t h => exec_cmd h, fun s rest hh => ?_⟩
  · have hstep := step_write_cmd hh
    obtain ⟨t, ht⟩ : ∃ t, step s = .next t := by
      obtain hn | ⟨off, width, ha, -, ⟨⟨⟩⟩ | ⟨v, ⟨⟩⟩⟩ := perform_result (.write 0x00 32 w) { s with host := rest }
      · rwa [step_of_host hh]
      · exact absurd ha (by decide)
    rw [hstep] at ht
    have hstored : (s.set .cmd w).get .cmd = w := by rw [State.get_set, if_pos rfl]
    exact ⟨t, hstep.trans ht, ht, (execWord_cmd ht).trans hstored⟩
  · rw [step_read hh (by decide), regReadValue_cmd]

/-! ### Reset, the idle step and the entropy operand -/

/-- Settles O14: the register file of the reset state is 0 at every name. -/
theorem everyRegisterIsZeroAfterReset : Obligations.EveryRegisterIsZeroAfterReset := by
  refine ⟨State.get_reset, ?_, ?_, ?_, ?_⟩
  · rw [State.get_reset]; decide
  · rw [State.get_reset]; decide
  · rw [State.err, State.get_reset]; decide
  · rw [State.valid, State.get_reset]; decide

/-- Settles O15: only an action taken off the host's list makes a step do anything. -/
theorem nothingHappensWithoutAHostAction : Obligations.NothingHappensWithoutAHostAction := by
  intro s hnil
  rw [step, hnil]

/-- The 80 bits of the entropy operand, from the top of ENT_IN0 to the middle of ENT_IN2 (10_state.md R37). -/
theorem be_entBytes (s : State) :
    be s.entBytes = (s.get (.entIn 0)).toNat * 2 ^ 48 + (s.get (.entIn 1)).toNat * 2 ^ 16 +
      (s.get (.entIn 2)).toNat / 2 ^ 16 := by
  have h0 := (s.get (.entIn 0)).isLt
  have h1 := (s.get (.entIn 1)).isLt
  have h2 := (s.get (.entIn 2)).isLt
  refine (be_ofFn_bytes _ _ fun j => ?_).trans (Nat.mod_eq_of_lt (by omega))
  rw [byteOf_toNat]
  fin_cases j <;> simp <;> omega

/-- Settles O31: byte `j` of the operand is byte `j` of that number. -/
theorem entropyOperandIsBigEndian : Obligations.EntropyOperandIsBigEndian :=
  fun s => ⟨entBytes_length s, be_entBytes s⟩

end Sys2Proof.Machine
end

section
/-! The host port (20_memory.md): a host that makes only admitted accesses is never stopped (R72), what `RegRead` and
`RegWrite` do (R70, R71), and the write to CMD that executes a command, once or twice (R73). -/

namespace Sys2Proof.Machine

/-! ### The host's plan along a run -/

theorem inputOf_host (i : Instr) (s : State) : (inputOf i s).host = s.host := by
  unfold inputOf; split <;> rfl

/-- No command touches what the host will do next (20_memory.md R73). -/
theorem exec_host {i : Instr} {s t : State} (h : exec i s = .next t) : t.host = s.host := by
  rw [← inputOf_host i s]
  rcases endedIn_of_exec h with ⟨e, rfl⟩ | ⟨u, rfl, ⟨hhost, -⟩, -⟩
  · rfl
  · exact hhost

theorem execWord_host {w : Word} {s t : State} (h : execWord w s = .next t) : t.host = s.host := by
  rcases execWord_cases h with ⟨i, -, hi⟩ | rfl
  · exact exec_host hi
  · rfl

theorem hostRead_host {off width : Nat} {s t : State} (h : hostRead off width s = .next t) : t.host = s.host := by
  unfold hostRead at h
  split at h
  · cases h; rfl
  · cases h

theorem hostWrite_host {off width : Nat} {v : Word} {s t : State} (h : hostWrite off width v s = .next t) :
    t.host = s.host := by
  have hstore : (regStore s off v).host = s.host := (regStore_outside s off v).1
  unfold hostWrite at h
  split at h
  · split at h
    · exact (execWord_host h).trans hstore
    · cases h; exact hstore
  · cases h

/-- What the host will do after an action, it was to do before, or it is the write that a `cp` has left
(30_encoding.md R105, R106). -/
theorem mem_host_of_perform {a b : HostAction} {s t : State} (h : perform a s = .next t) (hb : b ∈ t.host) :
    b ∈ s.host ∨ ∃ (r : Reg) (v : Word), b = .write r.offset 32 v := by
  cases a with
  | read off width => exact .inl (hostRead_host h ▸ hb)
  | write off width v => exact .inl (hostWrite_host h ▸ hb)
  | copy dst src =>
    cases h
    rcases List.mem_cons.mp hb with rfl | hb
    · exact .inr ⟨dst, _, rfl⟩
    · exact .inl hb
  | branch r mask value nThen nElse =>
    cases h
    left
    dsimp only at hb
    split at hb
    · exact (List.mem_append.mp hb).elim List.mem_of_mem_take List.mem_of_mem_drop
    · exact List.mem_of_mem_drop hb
  | halt =>
    cases h
    exact .inl (List.mem_filter.mp hb).1
  | assertReset =>
    cases h
    exact .inl hb

/-- Every step either answers a next state or performs an inadmissible access (20_memory.md R72). -/
theorem step_result (s : State) :
    (∃ t, step s = .next t) ∨
      ∃ off width rest, admitted off width = false ∧ step s = .fault (.hostAccessFault off width) ∧
        (s.host = .read off width :: rest ∨ ∃ v, s.host = .write off width v :: rest) := by
  cases hh : s.host with
  | nil => exact .inl ⟨s, nothingHappensWithoutAHostAction s hh⟩
  | cons a rest =>
    rw [step_of_host hh]
    rcases perform_result a { s with host := rest } with hnext | ⟨off, width, ha, hfault, haction⟩
    · exact .inl hnext
    · refine .inr ⟨off, width, rest, ha, hfault, ?_⟩
      rcases haction with rfl | ⟨v, rfl⟩
      · exact .inl rfl
      · exact .inr ⟨v, rfl⟩

/-- Progress: a host that makes only admitted accesses is not stopped by its next one. -/
theorem step_of_disciplined {s : State} (hs : s.HostDisciplined) : ∃ t, step s = .next t := by
  rcases step_result s with hnext | ⟨off, width, rest, ha, -, hh⟩
  · exact hnext
  · have hadm : admitted off width = true := by
      rcases hh with hh | ⟨v, hh⟩
      · exact hs (.read off width) (by simp [hh])
      · exact hs (.write off width v) (by simp [hh])
    exact absurd hadm (by simp [ha])

/-- Preservation: what is planned after the step is admitted too. -/
theorem step_keeps_disciplined {s t : State} (hs : s.HostDisciplined) (h : step s = .next t) : t.HostDisciplined := by
  cases hh : s.host with
  | nil =>
    cases (nothingHappensWithoutAHostAction s hh).symm.trans h
    exact hs
  | cons a rest =>
    intro b hb
    rcases mem_host_of_perform ((step_of_host hh).symm.trans h) hb with hmem | ⟨r, v, rfl⟩
    · exact hs b (hh ▸ List.mem_cons_of_mem a hmem)
    · exact admitted_offset r

/-- Settles O53: a disciplined state has a next state, which is disciplined, so by induction a run of any length does. -/
theorem disciplinedHostNeverFaults : Obligations.DisciplinedHostNeverFaults := by
  intro s n hs
  induction n generalizing s with
  | zero => exact ⟨s, rfl, hs⟩
  | succ n ih =>
    obtain ⟨t, ht⟩ := step_of_disciplined hs
    rw [core_run_succ n ht]
    exact ih t (step_keeps_disciplined hs ht)

/-! ### What stops the machine -/

/-- Settles O8: the action planned next decides, and only an inadmissible access is no next state. -/
theorem nothingElseStopsTheMachine : Obligations.NothingElseStopsTheMachine := by
  intro s
  rcases step_result s with hnext | ⟨off, width, rest, ha, hfault, hh⟩
  · exact .inl hnext
  · exact .inr ⟨off, width, rest, (admitted_eq_false_iff off width).mp ha, hfault, hh⟩

/-- A fault is never cleared (20_memory.md R72). -/
theorem core_run_fault {s : State} {f : Fault} (n : Nat) (h : step s = .fault f) :
    Sys2Proof.core.run (n + 1) s = .fault f := by
  have hcore : Sys2Proof.core.step s = .fault f := h
  simp only [Host.Core.run, hcore]

/-- An inadmissible access is a fault (20_memory.md R72). -/
theorem step_inadmissible {s : State} {off width : Nat} {rest : List HostAction} (ha : admitted off width = false)
    (hh : s.host = .read off width :: rest ∨ ∃ v, s.host = .write off width v :: rest) :
    step s = .fault (.hostAccessFault off width) := by
  rcases hh with hh | ⟨v, hh⟩
  · simp [step_of_host hh, perform, hostRead, ha]
  · simp [step_of_host hh, perform, hostWrite, ha]

/-- Settles O7: neither primitive is defined for the access, and a run stops at its first fault. -/
theorem inadmissibleAccessIsAFault : Obligations.InadmissibleAccessIsAFault := by
  intro s off width rest hbad hh
  have hfault := step_inadmissible ((admitted_eq_false_iff off width).mpr hbad) hh
  exact ⟨hfault, fun n => core_run_fault n hfault⟩

/-! ### `RegRead` and `RegWrite` -/

/-- The admitted accesses are those of one whole slot, of which there are 32 (20_memory.md R70, R72). -/
theorem slot_of_admitted {off width : Nat} (h : admitted off width = true) : width = 32 ∧ ∃ k < 32, off = 4 * k := by
  simp only [admitted, Bool.and_eq_true, beq_iff_eq, decide_eq_true_eq] at h
  obtain ⟨⟨hwidth, halign⟩, hlt⟩ := h
  exact ⟨hwidth, off / 4, by omega, by omega⟩

/-- A host write to an RO register does nothing (10_state.md R34). -/
theorem step_write_readOnly {s : State} {r : Reg} {v : Word} {rest : List HostAction}
    (hh : s.host = .write r.offset 32 v :: rest) (hr : r.writable = false) :
    step s = .next { s with host := rest } := by
  have hcmd : r ≠ .cmd := by
    rintro rfl
    exact absurd hr (by decide)
  rw [step_write hh (admitted_offset r) (offset_ne_zero hcmd), regStore_offset, hr]
  rfl

/-- A host write to a reserved offset does nothing (10_state.md R34). -/
theorem step_write_reserved {s : State} {off : Nat} {v : Word} {rest : List HostAction}
    (hoff : off = 0x74 ∨ off = 0x78 ∨ off = 0x7C) (hh : s.host = .write off 32 v :: rest) :
    step s = .next { s with host := rest } := by
  obtain ⟨ha, hr⟩ := (reserved_iff off).mpr hoff
  rw [step_write hh ha (by omega), regStore_reserved _ hr]

/-- Settles O9: one clause for each kind of slot, and the accesses that are performed are the admitted ones. -/
theorem hostReadAndWriteReachTheSlots : Obligations.HostReadAndWriteReachTheSlots := by
  refine ⟨fun s r rest hh => step_read_reg hh, fun s off rest hh hoff => step_read_reserved hoff hh,
    fun s r v rest hh hw hcmd => step_write_reg hh hcmd hw, fun s r v rest hh hr => step_write_readOnly hh hr,
    fun s off v rest hh hoff => step_write_reserved hoff hh, fun s w rest hh => ?_, fun s t off width rest hh h => ?_⟩
  · obtain ⟨t, hstep, -, hcmd⟩ := cmdHoldsTheLastWordWritten.1 s w rest hh
    exact ⟨t, hstep, hcmd⟩
  · rcases hh with hh | ⟨v, hh⟩
    · exact slot_of_admitted (admitted_of_step_read hh h)
    · exact slot_of_admitted (admitted_of_step_write hh h)

/-- Settles O18: the window is a translation by its base, and the address map and the RW column are finite tables. -/
theorem everySlotHasItsAddress : Obligations.EverySlotHasItsAddress := by
  refine ⟨fun off => ?_, fun r => ⟨admitted_offset r, regAt_offset r⟩, reserved_iff, ?_, by decide⟩
  · rw [offsetOfHostAddress, hostAddress, if_pos (Nat.le_add_right _ _), Nat.add_sub_cancel_left]
  · exact ⟨rfl, rfl, rfl, rfl, rfl, fun _ => rfl, rfl, fun _ => rfl, rfl, rfl, fun _ => rfl, fun _ => rfl, rfl⟩

/-! ### The write that executes a command -/

theorem execWord_of_decode {w : Word} {i : Instr} (h : decode w = .instr i) (s : State) : execWord w s = exec i s := by
  rw [execWord, h]

/-- Settles O6: the step executes the word in the state that holds it, and the word decodes to `i`. -/
theorem stepRunsTheDecodedCommand : Obligations.StepRunsTheDecodedCommand := by
  intro s w i rest hh hd
  rw [step_write_cmd hh, execWord_of_decode hd]

end Sys2Proof.Machine
end

section
/-! A command as its answer and the writing of it: the answer is an error or a result, computed from the operand registers
alone (43_facade.md R209), and writing it twice is writing it once (20_memory.md R73). -/

namespace Sys2Proof.Machine

/-! ### Answers -/

/-- The result of a command, as the value its result registers take (30_encoding.md R102, "results written"). -/
inductive CommandResult
  | string (b : List Byte)
  | validity (v : Bool)
  | timestamp (ts : BitVec 48)
  | entropy (e : List Byte)
  | parts (ts : BitVec 48) (e : List Byte)
  | symbol (w : Word)

/-- The state with the result in its registers. -/
def CommandResult.writeTo (s : State) : CommandResult → State
  | .string b => s.writeStr b
  | .validity v => s.setValid v
  | .timestamp ts => s.writeTs ts
  | .entropy e => s.writeEnt e
  | .parts ts e => (s.writeTs ts).writeEnt e
  | .symbol w => s.set .symOut w

/-- How a command ends: it raises its error, or writes its result and succeeds (00_scope.md R11). -/
def finish (a : Except ErrorKind CommandResult) (s : State) : State :=
  match a with
  | .error e => raise e s
  | .ok r => succeed (r.writeTo s)

/-- The answer of a strict command on the string operand: `Validate`'s error, or its result (42_validator.md R180). -/
def onString (s : State) (r : CommandResult) : Except ErrorKind CommandResult :=
  match validate s with
  | some e => .error e
  | none => .ok r

/-- RANDOM's answer to its draws (43_facade.md R202). -/
def answerToDraw (d : Draw) : Except ErrorKind CommandResult :=
  match d.entropy with
  | .fail => .error .sourceFailure
  | .bytes b =>
    if inRange d.clock = false then .error .outOfRange
    else if b.length ≠ 10 then .error .invalidLength
    else .ok (.string (encodeStr (d.clock.extractLsb' 0 48) b))

/-- A command's answer in a state. -/
def answerOf (i : Instr) (s : State) : Except ErrorKind CommandResult :=
  match i with
  | .generate =>
    if inRange s.ts64 = false then .error .outOfRange
    else if presentField (s.get .entCtrl) = false then .error .missingInput
    else if lenField (s.get .entCtrl) ≠ 10 then .error .invalidLength
    else .ok (.string (encodeStr (s.ts64.extractLsb' 0 48) s.entBytes))
  | .random => answerToDraw (nextDraw s)
  | .parse => onString s (.string (s.strChars.map fold))
  | .isvalid => .ok (.validity (validate s).isNone)
  | .getts => onString s (.timestamp (timestampOf s.strChars))
  | .getent => onString s (.entropy (entropyOf s.strChars))
  | .decode => onString s (.parts (timestampOf s.strChars) (entropyOf s.strChars))
  | .encsym rank =>
    if 31 < rank then .error .outOfRange else .ok (.symbol ((sym (BitVec.ofNat 5 rank)).setWidth 32))
  | .decsym char =>
    match rankOf char with
    | none => .error .illegalSymbol
    | some r => .ok (.symbol (r.setWidth 32))

theorem finish_answerToDraw (d : Draw) (s : State) : finish (answerToDraw d) s = randomResult d s := by
  obtain ⟨clock, entropy⟩ := d
  cases entropy with
  | fail => rfl
  | bytes b =>
    simp only [answerToDraw, randomResult]
    split_ifs <;> rfl

/-- Every command is the writing of its answer. -/
theorem exec_eq_finish (i : Instr) (s : State) : exec i s = .next (finish (answerOf i s) (inputOf i s)) := by
  cases i with
  | generate =>
    rw [inputOf_of_ne s (by decide)]
    simp only [exec, execGenerate, answerOf]
    split_ifs <;> rfl
  | random => exact congrArg _ (finish_answerToDraw _ _).symm
  | isvalid => rfl
  | parse | getts | getent | decode =>
    rw [inputOf_of_ne s (by decide)]
    simp only [exec, execParse, execGetts, execGetent, execDecode, answerOf, onString]
    cases validate s <;> rfl
  | encsym rank =>
    rw [inputOf_of_ne s (by simp)]
    simp only [exec, execEncsym, answerOf]
    split_ifs <;> rfl
  | decsym char =>
    rw [inputOf_of_ne s (by simp)]
    simp only [exec, execDecsym, answerOf]
    cases rankOf char <;> rfl

/-! ### Answers depend on operands only -/

theorem entBytes_congr {s t : State} (h : ∀ k, t.get (.entIn k) = s.get (.entIn k)) : t.entBytes = s.entBytes := by
  simp only [State.entBytes, h]

theorem ts64_congr {s t : State} (hlo : t.get .tsInLo = s.get .tsInLo) (hhi : t.get .tsInHi = s.get .tsInHi) :
    t.ts64 = s.ts64 := by
  simp only [State.ts64, hlo, hhi]

/-- The operand registers, and RANDOM's draws, determine the answer (43_facade.md R209). -/
theorem answerOf_congr {i : Instr} {s t : State} (h : ∀ r ∈ operandRegs i, t.get r = s.get r)
    (hdraw : i = .random → nextDraw t = nextDraw s) : answerOf i t = answerOf i s := by
  have hstring (hi : operandRegs i = strOperandRegs) : validate t = validate s ∧ t.strChars = s.strChars :=
    validate_of_regs (hi ▸ h)
  cases i with
  | generate =>
    have hts := ts64_congr (h .tsInLo (by simp [operandRegs])) (h .tsInHi (by simp [operandRegs]))
    have hent := entBytes_congr fun k => h (.entIn k) (by fin_cases k <;> simp [operandRegs])
    have hctrl := h .entCtrl (by simp [operandRegs])
    simp only [answerOf, hts, hent, hctrl]
  | random => simp only [answerOf, hdraw rfl]
  | parse | isvalid | getts | getent | decode => simp only [answerOf, onString, hstring rfl]
  | encsym | decsym => rfl

theorem writable_of_mem_operandRegs {i : Instr} {r : Reg} (h : r ∈ operandRegs i) : r.writable = true := by
  have hgen : ∀ r ∈ operandRegs .generate, r.writable = true := by decide
  have hstr : ∀ r ∈ strOperandRegs, r.writable = true := by decide
  cases i with
  | generate => exact hgen r h
  | parse | isvalid | getts | getent | decode => exact hstr r h
  | random | encsym | decsym => cases h

theorem not_writable_of_mem_resultRegs {i : Instr} {r : Reg} (h : r ∈ resultRegs i) : r.writable = false := by
  have hstr : ∀ r ∈ strOutRegs, r.writable = false := by decide
  have hparts : ∀ r ∈ tsOutRegs ++ entOutRegs, r.writable = false := by decide
  have hsym : ∀ r ∈ [Reg.symOut], r.writable = false := by decide
  cases i with
  | generate | random | parse => exact hstr r h
  | isvalid => cases h
  | getts => exact hparts r (List.mem_append_left _ h)
  | getent => exact hparts r (List.mem_append_right _ h)
  | decode => exact hparts r h
  | encsym | decsym => exact hsym r h

/-- No command changes a register that the host writes (60_exceptions.md R251, 10_state.md R44). -/
theorem exec_get_of_writable {i : Instr} {s t : State} {r : Reg} (h : exec i s = .next t) (hr : r.writable = true) :
    t.get r = s.get r := by
  refine exec_get_of_not_result h (ne_status_of_writable hr) fun hmem => ?_
  rw [not_writable_of_mem_resultRegs hmem] at hr
  cases hr

/-! ### Writing an answer twice -/

theorem statusWithValid_withErr (w : Word) (c : BitVec 4) (v : Bool) :
    statusWithValid (statusWithErr w c) v = statusWithErr (statusWithValid w v) c := by
  refine BitVec.eq_of_getLsbD_eq fun i _ => ?_
  simp only [getLsbD_statusWithValid, getLsbD_statusWithErr]
  by_cases h8 : i = 8 <;> simp [h8]

theorem statusWithValid_withValid (w : Word) (u v : Bool) :
    statusWithValid (statusWithValid w u) v = statusWithValid w v := by
  refine BitVec.eq_of_getLsbD_eq fun i _ => ?_
  simp only [getLsbD_statusWithValid]
  split <;> rfl

theorem succeed_succeed (s : State) : succeed (succeed s) = succeed s := by
  refine State.ext_get (fun r => ?_) rfl rfl rfl rfl
  rw [get_succeed, get_succeed, get_succeed, if_pos rfl, statusWithErr_statusWithErr]
  split <;> rfl

theorem CommandResult.sameOutside_writeTo (r : CommandResult) (s : State) : SameOutside s (r.writeTo s) := by
  cases r with
  | string b => exact sameOutside_writeStr s b
  | validity v => exact sameOutside_set s .status _
  | timestamp ts => exact sameOutside_writeTs s ts
  | entropy e => exact sameOutside_writeEnt s e
  | parts ts e => exact (sameOutside_writeTs s ts).trans (sameOutside_writeEnt _ e)
  | symbol w => exact sameOutside_set s .symOut w

/-- The fields of STATUS are written independently, and no other result lies in STATUS (10_state.md R45). -/
theorem CommandResult.writeTo_succeed (r : CommandResult) (s : State) :
    r.writeTo (succeed s) = succeed (r.writeTo s) := by
  cases r with
  | validity v =>
    refine State.ext_get (fun q => ?_) rfl rfl rfl rfl
    simp only [writeTo, State.get_setValid, get_succeed, if_true, statusWithValid_withErr]
    split <;> rfl
  | _ => rfl

theorem CommandResult.writeTo_writeTo (r : CommandResult) (s : State) : r.writeTo (r.writeTo s) = r.writeTo s := by
  obtain ⟨hhost, hreads, hdraws, hcount⟩ := r.sameOutside_writeTo (r.writeTo s)
  refine State.ext_get (fun q => ?_) hhost hreads hdraws hcount
  cases r with
  | validity v =>
    simp only [writeTo, State.get_setValid, if_true, statusWithValid_withValid]
    split <;> rfl
  | string b => cases q <;> simp only [writeTo, State.get_writeStr]
  | timestamp ts => simp only [writeTo, State.get_writeTs]; split_ifs <;> rfl
  | entropy e => cases q <;> simp only [writeTo, State.get_writeEnt]
  | parts ts e => cases q <;> simp [writeTo, State.get_writeEnt, State.get_writeTs]
  | symbol w => simp only [writeTo, State.get_set]; split <;> rfl

theorem finish_finish (a : Except ErrorKind CommandResult) (s : State) : finish a (finish a s) = finish a s := by
  cases a with
  | error e => exact raise_raise e s
  | ok r => simp only [finish, r.writeTo_succeed, r.writeTo_writeTo, succeed_succeed]

/-- Settles O50: the operands are still there, so the answer is the same, and it is written already. -/
theorem repeatedCommandWritesTheSame : Obligations.RepeatedCommandWritesTheSame := by
  intro i s t hi h
  have hanswer : answerOf i t = answerOf i s :=
    answerOf_congr (fun r hr => exec_get_of_writable h (writable_of_mem_operandRegs hr)) fun hrandom => absurd hrandom hi
  rw [exec_eq_finish, inputOf_of_ne _ hi] at h ⊢
  cases h
  rw [hanswer, finish_finish]

end Sys2Proof.Machine
end

section
/-! The command word (30_encoding.md R100 to R104): decoding and encoding undo each other, the words that select a command
are those of the opcode table, and every other word raises ILLEGAL_COMMAND. -/

namespace Sys2Proof.Machine

open Sys2Proof.Laws (formatC_fields fields_formatC decode_formatC decodeOp_cases)

/-! ### The round trips -/

/-- ARG holds a rank modulo 256, and modulo 256 the rank is read back (30_encoding.md R103). -/
theorem decode_encode_encsym (rank : Nat) : decode (encode (.encsym rank)) = .instr (.encsym (rank % 256)) := by
  obtain ⟨hop, -, harg, -⟩ := fields_formatC 0x8 (BitVec.ofNat 8 rank)
  rw [encode, decode_formatC, decodeOp, hop, harg, BitVec.toNat_ofNat]
  rfl

theorem decode_encode_decsym (char : Byte) : decode (encode (.decsym char)) = .instr (.decsym char) := by
  obtain ⟨hop, -, harg, -⟩ := fields_formatC 0x9 char
  rw [encode, decode_formatC, decodeOp, hop, harg]
  rfl

theorem decode_encode {i : Instr} (hi : i.wellFormed = true) : decode (encode i) = .instr i := by
  cases i with
  | encsym rank =>
    have hrank : rank < 256 := of_decide_eq_true hi
    rw [decode_encode_encsym, Nat.mod_eq_of_lt hrank]
  | decsym char => exact decode_encode_decsym char
  | generate | random | parse | isvalid | getts | getent | decode => decide

/-- Settles O1: the seven words without an operand are closed, and ARG is read back for the other two. -/
theorem decodeOfEncodeIsTheCommand : Obligations.DecodeOfEncodeIsTheCommand := fun _ hi => decode_encode hi

/-- The decoder answers no rank above 255: the word of any rank decodes to that rank modulo 256. -/
theorem wellFormed_of_decode {w : Word} {i : Instr} (h : decode w = .instr i) : i.wellFormed = true := by
  cases i with
  | encsym rank =>
    have hmod := decode_encode_encsym rank
    rw [encode_of_decode h, h] at hmod
    injection hmod with hinstr
    injection hinstr with hrank
    exact decide_eq_true (by omega)
  | generate | random | parse | isvalid | getts | getent | decode | decsym => rfl

/-- Settles O2: the word is put together again from its fields, and ARG has 8 bits. -/
theorem encodeOfDecodeIsTheWord : Obligations.EncodeOfDecodeIsTheWord :=
  fun _ _ h => ⟨wellFormed_of_decode h, encode_of_decode h⟩

/-! ### The opcode table -/

/-- The mask of the two rows with an operand clears ARG and keeps the other fields of format C (30_encoding.md R102). -/
theorem fields_and_mask (w : Word) :
    opField (w &&& 0xFFFF00FF) = opField w ∧ rsv0Field (w &&& 0xFFFF00FF) = rsv0Field w ∧
      rsv1Field (w &&& 0xFFFF00FF) = rsv1Field w := by
  refine ⟨?_, ?_, ?_⟩
  · rw [opField, BitVec.extractLsb'_and]
    exact BitVec.and_allOnes
  · rw [rsv0Field, BitVec.extractLsb'_and]
    exact BitVec.and_allOnes
  · rw [rsv1Field, BitVec.extractLsb'_and]
    exact BitVec.and_allOnes

theorem formatC_and_mask (op : BitVec 4) (arg : Byte) : formatC op arg &&& 0xFFFF00FF = formatC op 0 := by
  obtain ⟨hop, h0, h1⟩ := fields_and_mask (formatC op arg)
  obtain ⟨hop', h0', -, h1'⟩ := fields_formatC op arg
  have harg : argField (formatC op arg &&& 0xFFFF00FF) = 0 := by
    rw [argField, BitVec.extractLsb'_and]
    exact BitVec.and_zero
  rw [← formatC_fields (h0.trans h0') (h1.trans h1'), hop, hop', harg]

/-- The words that fit a row with an operand are those of its opcode, whatever their ARG. -/
theorem eq_formatC_of_and_mask {w : Word} {op : BitVec 4} (h : w &&& 0xFFFF00FF = formatC op 0) :
    w = formatC op (argField w) := by
  obtain ⟨hop, h0, h1⟩ := fields_and_mask w
  obtain ⟨hop', h0', -, h1'⟩ := fields_formatC op 0
  rw [h] at hop h0 h1
  rw [← hop', hop]
  exact (formatC_fields (h0.symm.trans h0') (h1.symm.trans h1')).symm

/-- The word of a command fits the command's row. -/
theorem exists_row_of_encode (i : Instr) :
    ∃ row ∈ opcodeRows, row.fits (encode i) = true ∧ row.mnemonic = i.mnemonic := by
  cases i with
  | encsym rank => exact ⟨⟨"ENCSYM", 0x00000008, 0xFFFF00FF⟩, by decide, beq_iff_eq.mpr (formatC_and_mask 0x8 _), rfl⟩
  | decsym char => exact ⟨⟨"DECSYM", 0x00000009, 0xFFFF00FF⟩, by decide, beq_iff_eq.mpr (formatC_and_mask 0x9 _), rfl⟩
  | generate | random | parse | isvalid | getts | getent | decode => decide

/-- A word that fits a row is the word of a well-formed command of the row's mnemonic. -/
theorem exists_instr_of_fits {row : OpcodeRow} {w : Word} (hrow : row ∈ opcodeRows) (hfits : row.fits w = true) :
    ∃ i : Instr, i.wellFormed = true ∧ encode i = w ∧ i.mnemonic = row.mnemonic := by
  have hbits : w &&& row.mask = row.pattern := beq_iff_eq.mp hfits
  have whole {v : Word} (h : w &&& 0xFFFFFFFF = v) : v = w := h.symm.trans BitVec.and_allOnes
  simp only [opcodeRows, List.mem_cons, List.not_mem_nil, or_false] at hrow
  rcases hrow with rfl | rfl | rfl | rfl | rfl | rfl | rfl | rfl | rfl
  · exact ⟨.generate, rfl, whole hbits, rfl⟩
  · exact ⟨.random, rfl, whole hbits, rfl⟩
  · exact ⟨.parse, rfl, whole hbits, rfl⟩
  · exact ⟨.isvalid, rfl, whole hbits, rfl⟩
  · exact ⟨.getts, rfl, whole hbits, rfl⟩
  · exact ⟨.getent, rfl, whole hbits, rfl⟩
  · exact ⟨.decode, rfl, whole hbits, rfl⟩
  · refine ⟨.encsym (argField w).toNat, decide_eq_true (argField w).isLt, ?_, rfl⟩
    rw [encode, BitVec.ofNat_toNat, BitVec.setWidth_eq]
    exact (eq_formatC_of_and_mask (op := 0x8) hbits).symm
  · exact ⟨.decsym (argField w), rfl, (eq_formatC_of_and_mask (op := 0x9) hbits).symm, rfl⟩

/-- Settles O3: the words of the commands and the words that fit a row are the same. -/
theorem commandWordsAreTheTableRows : Obligations.CommandWordsAreTheTableRows := by
  intro w m
  constructor
  · rintro ⟨i, hd, rfl⟩
    rw [← encode_of_decode hd]
    exact exists_row_of_encode i
  · rintro ⟨row, hrow, hfits, rfl⟩
    obtain ⟨i, hi, rfl, hname⟩ := exists_instr_of_fits hrow hfits
    exact ⟨i, decode_encode hi, hname⟩

/-- Settles O4: the decoder evaluated on each word. -/
theorem writtenOutWordsDecode : Obligations.WrittenOutWordsDecode := by
  unfold Obligations.WrittenOutWordsDecode
  decide

/-! ### Illegal words -/

/-- The three kinds of illegal word (30_encoding.md R104). -/
def IllegalWord (w : Word) : Prop :=
  rsv0Field w ≠ 0 ∨ rsv1Field w ≠ 0 ∨ opField w = 0x0 ∨ 0xA ≤ (opField w).toNat ∨
    (1 ≤ (opField w).toNat ∧ (opField w).toNat ≤ 7 ∧ argField w ≠ 0)

/-- Every command's word has format C, its fields those of the command's row (30_encoding.md R100, R102). -/
theorem encode_has_formatC (i : Instr) : Laws.FormatC.Statement i := by
  cases i with
  | generate => exact Laws.FormatC.generate
  | random => exact Laws.FormatC.random
  | parse => exact Laws.FormatC.parse
  | isvalid => exact Laws.FormatC.isvalid
  | getts => exact Laws.FormatC.getts
  | getent => exact Laws.FormatC.getent
  | decode => exact Laws.FormatC.decode
  | encsym rank => exact Laws.FormatC.encsym rank
  | decsym char => exact Laws.FormatC.decsym char

/-- The word of a command has none of the three faults. -/
theorem not_illegalWord_of_decode {w : Word} {i : Instr} (h : decode w = .instr i) : ¬ IllegalWord w := by
  have hformat := encode_has_formatC i
  rw [Laws.FormatC.Statement, encode_of_decode h, List.mem_range'_1] at hformat
  obtain ⟨h0, h1, hop, harg⟩ := hformat
  rintro (h | h | h | h | ⟨-, hle, h⟩)
  · exact h h0
  · exact h h1
  · rw [h] at hop
    exact absurd hop (by decide)
  · omega
  · exact h (harg hle)

/-- The decoder's answer by the kinds of opcode: without an operand, with one, and unassigned (30_encoding.md R102,
R104). -/
theorem decodeOp_kinds (w : Word) :
    ((opField w).toNat ≤ 7 ∧ 1 ≤ (opField w).toNat ∧ ∃ i, decodeOp w = withoutArg w i) ∨
      (∃ i, decodeOp w = .instr i) ∨ opField w = 0x0 ∨ 0xA ≤ (opField w).toNat := by
  rcases decodeOp_cases w with ⟨hop, hd⟩ | ⟨hop, hd⟩ | ⟨hop, hd⟩ | ⟨hop, hd⟩ | ⟨hop, hd⟩ | ⟨hop, hd⟩ | ⟨hop, hd⟩ |
    ⟨-, hd⟩ | ⟨-, hd⟩ | ⟨hop | hop, -⟩
  iterate 7 exact .inl ⟨by omega, by omega, _, hd⟩
  · exact .inr (.inl ⟨_, hd⟩)
  · exact .inr (.inl ⟨_, hd⟩)
  · exact .inr (.inr (.inl (BitVec.eq_of_toNat_eq hop)))
  · exact .inr (.inr (.inr hop))

theorem exists_decode_of_not_illegalWord {w : Word} (h : ¬ IllegalWord w) : ∃ i, decode w = .instr i := by
  simp only [IllegalWord, not_or] at h
  obtain ⟨h0, h1, hzero, hhigh, harg⟩ := h
  have hdecode : decode w = decodeOp w := if_neg (not_or.mpr ⟨h0, h1⟩)
  rw [hdecode]
  rcases decodeOp_kinds w with ⟨hle, hpos, i, hd⟩ | hd | hop | hop
  · exact ⟨i, hd.trans (if_pos (not_not.mp fun hne => harg ⟨hpos, hle, hne⟩))⟩
  · exact hd
  · exact absurd hop hzero
  · exact absurd hop hhigh

/-- `Exec` of an illegal word raises ILLEGAL_COMMAND (30_encoding.md R101, R104). -/
theorem execWord_of_illegalWord {w : Word} (h : IllegalWord w) (s : State) :
    execWord w s = .next (raise .illegalCommand s) := by
  cases hd : decode w with
  | instr i => exact absurd h (not_illegalWord_of_decode hd)
  | rejected r => rw [execWord, hd]

/-- Settles O5: the step stores the word and executes it, and an illegal word is one that decodes to no command. -/
theorem illegalWordsRaiseIllegalCommand : Obligations.IllegalWordsRaiseIllegalCommand := by
  intro s w rest hh
  refine ⟨fun hillegal => ?_, fun hlegal => exists_decode_of_not_illegalWord hlegal⟩
  exact ⟨_, (step_write_cmd hh).trans (execWord_of_illegalWord hillegal _), failed_raise _ _⟩

end Sys2Proof.Machine
end

section
/-! The lines of a host program (30_encoding.md R105, R106): the read-then-write `cp`, the branch `if`, and the loading
pseudo-instructions, each of which is a list of writes to different registers. -/

namespace Sys2Proof.Machine

/-! ### `cp` and `if` -/

/-- A host write to a register other than CMD, whether RW or RO (10_state.md R34). -/
theorem step_write_not_cmd {s : State} {r : Reg} {v : Word} {rest : List HostAction}
    (hh : s.host = .write r.offset 32 v :: rest) (hcmd : r ≠ .cmd) :
    ∃ t, step s = .next t ∧ t.host = rest ∧ t.reads = s.reads ∧ (r.writable = true → t.get r = v &&& r.mask) ∧
      (r.writable = false → t.get r = s.get r) ∧ ∀ r', r' ≠ r → t.get r' = s.get r' := by
  cases hr : r.writable with
  | true =>
    refine ⟨_, step_write_reg hh hcmd hr, rfl, rfl, fun _ => ?_, nofun, fun r' hne => ?_⟩
    · rw [State.get_set, if_pos rfl]
    · exact (State.get_set _ r r' _).trans (if_neg hne)
  | false => exact ⟨_, step_write_readOnly hh hr, rfl, rfl, nofun, fun _ => rfl, fun _ _ => rfl⟩

/-- Settles O16: the copy queues the write of the value it read, and the next step performs that write. -/
theorem copyReadsThenWrites : Obligations.CopyReadsThenWrites := by
  intro s dst src rest hh
  have hstep : step s = .next { s with
      reads := s.reads ++ [s.get src &&& src.mask]
      host := .write dst.offset 32 (s.get src &&& src.mask) :: rest } := by
    rw [step_of_host hh, perform, hostCopy, regReadValue_offset]
    rfl
  exact ⟨_, hstep, rfl, rfl, rfl, fun hcmd => step_write_not_cmd rfl hcmd⟩

/-- Settles O17: the two groups are the first and the second part of what the host had planned after the branch. -/
theorem branchReadsOnceAndChoosesAGroup : Obligations.BranchReadsOnceAndChoosesAGroup := by
  intro s r mask value thn els rest hh
  obtain ⟨hthen, helse⟩ := branch_groups thn els rest
  have hstep : step s = .next { s with
      reads := s.reads ++ [s.get r &&& r.mask]
      host := if s.get r &&& r.mask &&& mask = value then thn ++ rest else els ++ rest } := by
    rw [step_of_host hh, perform, hostBranch, regReadValue_offset, hthen, helse]
    rfl
  exact ⟨_, hstep, rfl, rfl, fun heq => if_pos heq, fun hne => if_neg hne⟩

/-! ### A list of writes -/

/-- The host's writes of the listed words, one 32-bit access each (30_encoding.md R105 `wr`). -/
def writesOf (ws : List (Reg × Word)) : List HostAction := ws.flatMap fun p => Notation.wr p.1 p.2

/-- Writes to different RW registers, none of them CMD, store each word without its reserved bits and change no other
register (10_state.md R34). -/
theorem core_run_writesOf {ws : List (Reg × Word)} {s : State} {rest : List HostAction}
    (hrw : ∀ r ∈ ws.map Prod.fst, r ≠ .cmd ∧ r.writable = true) (hdistinct : (ws.map Prod.fst).Nodup)
    (hh : s.host = writesOf ws ++ rest) :
    ∃ t : State, Sys2Proof.core.run ws.length s = .next t ∧ t.host = rest ∧ (∀ p ∈ ws, t.get p.1 = p.2 &&& p.1.mask) ∧
      ∀ r, r ∉ ws.map Prod.fst → t.get r = s.get r := by
  induction ws generalizing s with
  | nil => exact ⟨s, rfl, hh, nofun, fun _ _ => rfl⟩
  | cons p ws ih =>
    rw [List.map_cons, List.forall_mem_cons] at hrw
    rw [List.map_cons, List.nodup_cons] at hdistinct
    obtain ⟨⟨hcmd, hwritable⟩, hrw⟩ := hrw
    obtain ⟨hnew, hdistinct⟩ := hdistinct
    obtain ⟨u, hstep, hhost, -, hstored, -, hframe⟩ := step_write_not_cmd (r := p.1) hh hcmd
    obtain ⟨t, hrun, hrest, hstores, hkept⟩ := ih hrw hdistinct hhost
    refine ⟨t, (core_run_succ _ hstep).trans hrun, hrest, List.forall_mem_cons.mpr ⟨?_, hstores⟩, fun r hr => ?_⟩
    · rw [hkept p.1 hnew, hstored hwritable]
    · rw [List.map_cons, List.mem_cons, not_or] at hr
      rw [hkept r hr.2, hframe r hr.1]

/-! ### What the loading pseudo-instructions write -/

theorem and_mask_of_and_not {v m : Word} (h : v &&& ~~~m = 0) : v &&& m = v := by
  rw [and_not_eq_zero_iff] at h
  refine BitVec.eq_of_getLsbD_eq fun i hi => ?_
  have hbit := h i hi
  cases hv : v.getLsbD i <;> simp_all

theorem descriptor_toNat (n : Nat) : (Notation.descriptor n).toNat = 2 ^ 31 + min n 65535 := by
  have hlen : min n 65535 < 2 ^ 31 := by omega
  rw [Notation.descriptor, BitVec.toNat_or, BitVec.toNat_ofNat, Nat.mod_eq_of_lt (by omega)]
  exact (Nat.two_pow_add_eq_or_of_lt hlen 1).symm

/-- A descriptor has no bit but PRESENT and LEN, so writing it stores it whole (10_state.md R36, R38). -/
theorem descriptor_and_mask (n : Nat) : Notation.descriptor n &&& 0x8000FFFF = Notation.descriptor n := by
  refine and_mask_of_and_not ((and_not_eq_zero_iff _ _).mpr fun i hi hv => ?_)
  have hpresent : ∀ i < 32, (0x80000000 : Word).getLsbD i = true → (0x8000FFFF : Word).getLsbD i = true := by decide
  have hlen : ∀ i < 16, (0x8000FFFF : Word).getLsbD i = true := by decide
  rw [Notation.descriptor, BitVec.getLsbD_or, Bool.or_eq_true] at hv
  rcases hv with hv | hv
  · exact hpresent i hi hv
  · refine hlen i (Nat.lt_of_not_le fun hle => ?_)
    have hsmall : min n 65535 < 2 ^ i := calc
      min n 65535 < 2 ^ 16 := by omega
      _ ≤ 2 ^ i := Nat.pow_le_pow_right (by decide) hle
    rw [BitVec.getLsbD_ofNat, Nat.testBit_lt_two_pow hsmall, Bool.and_false] at hv
    cases hv

/-- The words of a packed sequence have no bit in the reserved half of the last register of their group (10_state.md R37,
R39). -/
theorem packedWord_and_group_mask {n : Nat} {b : List Byte} {last : Fin n} (hb : b.length ≤ 4 * last.val + 2)
    (k : Fin n) : packedWord b k.val &&& (if k = last then 0xFFFF0000 else 0xFFFFFFFF) = packedWord b k.val := by
  split
  next hk =>
    subst hk
    exact and_mask_of_and_not (packedWord_and_not hb)
  next => exact BitVec.and_allOnes

/-- The first `n` bytes of a sequence, packed four to a register and read back one by one (10_state.md R37, R39). -/
theorem getD_bytes_of_packed {n : Nat} {b : List Byte} {w : Fin n → Word}
    (hw : ∀ i, w i = packedWord (b.take n) (i.val / 4)) (i : Fin n) :
    (List.ofFn fun i => byteOf (w i) i.val).getD i.val 0 = b.getD i.val 0 := by
  rw [List.getD_eq_getElem?_getD, List.getElem?_ofFn, dif_pos i.isLt, Option.getD_some, hw, byteOf_packedWord,
    List.getD_eq_getElem?_getD, List.getElem?_take_of_lt i.isLt, List.getD_eq_getElem?_getD]

/-- The two halves of a 64-bit timestamp put together again (10_state.md R35). -/
theorem append_halves (v : BitVec 64) : v.extractLsb' 32 32 ++ v.extractLsb' 0 32 = v := by
  have hv := v.isLt
  apply BitVec.eq_of_toNat_eq
  rw [toNat_append_eq, toNat_extract, toNat_extract]
  omega

/-! ### The loading pseudo-instructions -/

/-- The words of `ldts` (30_encoding.md R106). -/
def ldtsWrites (v : BitVec 64) : List (Reg × Word) :=
  [(.tsInLo, v.extractLsb' 0 32), (.tsInHi, v.extractLsb' 32 32)]

/-- The words of `ldent` (30_encoding.md R106). -/
def ldentWrites (b : List Byte) : List (Reg × Word) :=
  (List.finRange 3).map (fun k => (.entIn k, packedWord (b.take 10) k.val)) ++
    [(.entCtrl, Notation.descriptor b.length)]

/-- The words of `ldstr` (30_encoding.md R106). -/
def ldstrWrites (text : List Byte) : List (Reg × Word) :=
  (List.finRange 7).map (fun k => (.strIn k, packedWord (text.take 26) k.val)) ++
    [(.strCtrl, Notation.descriptor text.length)]

theorem ldts_eq_writesOf (v : BitVec 64) : Notation.ldts v = writesOf (ldtsWrites v) := rfl
theorem ldent_eq_writesOf (b : List Byte) : Notation.ldent b = writesOf (ldentWrites b) := rfl
theorem ldstr_eq_writesOf (text : List Byte) : Notation.ldstr text = writesOf (ldstrWrites text) := rfl

theorem ldtsWrites_regs (v : BitVec 64) : (ldtsWrites v).map Prod.fst = [.tsInLo, .tsInHi] := rfl

theorem ldentWrites_regs (b : List Byte) :
    (ldentWrites b).map Prod.fst = [.entIn 0, .entIn 1, .entIn 2, .entCtrl] := rfl

theorem ldstrWrites_regs (text : List Byte) : (ldstrWrites text).map Prod.fst =
    [.strIn 0, .strIn 1, .strIn 2, .strIn 3, .strIn 4, .strIn 5, .strIn 6, .strCtrl] := rfl

theorem entCtrl_mem_ldentWrites (b : List Byte) : (.entCtrl, Notation.descriptor b.length) ∈ ldentWrites b :=
  List.mem_append_right _ (List.mem_singleton_self _)

theorem entIn_mem_ldentWrites (b : List Byte) (k : Fin 3) :
    (.entIn k, packedWord (b.take 10) k.val) ∈ ldentWrites b :=
  List.mem_append_left _ (List.mem_map.mpr ⟨k, List.mem_finRange k, rfl⟩)

theorem strCtrl_mem_ldstrWrites (text : List Byte) : (.strCtrl, Notation.descriptor text.length) ∈ ldstrWrites text :=
  List.mem_append_right _ (List.mem_singleton_self _)

theorem strIn_mem_ldstrWrites (text : List Byte) (k : Fin 7) :
    (.strIn k, packedWord (text.take 26) k.val) ∈ ldstrWrites text :=
  List.mem_append_left _ (List.mem_map.mpr ⟨k, List.mem_finRange k, rfl⟩)

/-- `ldts` (30_encoding.md R106). -/
theorem ldts_presents {s : State} {v : BitVec 64} {rest : List HostAction} (hh : s.host = Notation.ldts v ++ rest) :
    ∃ t, Sys2Proof.core.run 2 s = .next t ∧ t.host = rest ∧ t.ts64 = v ∧
      ∀ r, r ≠ .tsInLo → r ≠ .tsInHi → t.get r = s.get r := by
  rw [ldts_eq_writesOf] at hh
  obtain ⟨t, hrun, hhost, hstores, hkept⟩ :=
    core_run_writesOf (by rw [ldtsWrites_regs]; decide) (by rw [ldtsWrites_regs]; decide) hh
  refine ⟨t, hrun, hhost, ?_, fun r hlo hhi => hkept r (by simp [ldtsWrites_regs, hlo, hhi])⟩
  have hlo : t.get .tsInLo = v.extractLsb' 0 32 := (hstores _ (.head _)).trans BitVec.and_allOnes
  have hhi : t.get .tsInHi = v.extractLsb' 32 32 := (hstores _ (.tail _ (.head _))).trans BitVec.and_allOnes
  rw [State.ts64, hlo, hhi, append_halves]

/-- `ldent` (30_encoding.md R106). -/
theorem ldent_presents {s : State} {b : List Byte} {rest : List HostAction} (hh : s.host = Notation.ldent b ++ rest) :
    ∃ t, Sys2Proof.core.run 4 s = .next t ∧ t.host = rest ∧
      (t.get .entCtrl).toNat = 2 ^ 31 + min b.length 65535 ∧
      (∀ j : Fin 10, t.entBytes.getD j.val 0 = b.getD j.val 0) ∧
      ∀ r, r ∉ [Reg.entCtrl, .entIn 0, .entIn 1, .entIn 2] → t.get r = s.get r := by
  rw [ldent_eq_writesOf] at hh
  obtain ⟨t, hrun, hhost, hstores, hkept⟩ :=
    core_run_writesOf (by rw [ldentWrites_regs]; decide) (by rw [ldentWrites_regs]; decide) hh
  have hctrl : t.get .entCtrl = Notation.descriptor b.length :=
    (hstores _ (entCtrl_mem_ldentWrites b)).trans (descriptor_and_mask _)
  have hbytes (k : Fin 3) : t.get (.entIn k) = packedWord (b.take 10) k.val :=
    (hstores _ (entIn_mem_ldentWrites b k)).trans
      (packedWord_and_group_mask (last := 2) (List.length_take_le 10 b) k)
  refine ⟨t, hrun, hhost, by rw [hctrl, descriptor_toNat],
    getD_bytes_of_packed fun j => hbytes ⟨j.val / 4, by omega⟩, fun r hr => hkept r ?_⟩
  rw [ldentWrites_regs]
  simp only [List.mem_cons] at hr ⊢
  tauto

/-- `ldstr` (30_encoding.md R106). -/
theorem ldstr_presents {s : State} {text : List Byte} {rest : List HostAction}
    (hh : s.host = Notation.ldstr text ++ rest) :
    ∃ t, Sys2Proof.core.run 8 s = .next t ∧ t.host = rest ∧
      (t.get .strCtrl).toNat = 2 ^ 31 + min text.length 65535 ∧
      (∀ i : Fin 26, t.strChars.getD i.val 0 = text.getD i.val 0) ∧
      ∀ r, r ∉ strOperandRegs → t.get r = s.get r := by
  rw [ldstr_eq_writesOf] at hh
  obtain ⟨t, hrun, hhost, hstores, hkept⟩ :=
    core_run_writesOf (by rw [ldstrWrites_regs]; decide) (by rw [ldstrWrites_regs]; decide) hh
  have hctrl : t.get .strCtrl = Notation.descriptor text.length :=
    (hstores _ (strCtrl_mem_ldstrWrites text)).trans (descriptor_and_mask _)
  have hchars (k : Fin 7) : t.get (.strIn k) = packedWord (text.take 26) k.val :=
    (hstores _ (strIn_mem_ldstrWrites text k)).trans
      (packedWord_and_group_mask (last := 6) (List.length_take_le 26 text) k)
  refine ⟨t, hrun, hhost, by rw [hctrl, descriptor_toNat],
    getD_bytes_of_packed fun i => hchars ⟨i.val / 4, by omega⟩, fun r hr => hkept r ?_⟩
  rw [ldstrWrites_regs]
  simp only [strOperandRegs, List.mem_cons] at hr ⊢
  tauto

/-- Settles O19: each of the three is a list of writes to different RW registers, whose words lose no bit. -/
theorem loadingPseudosPresentTheirOperand : Obligations.LoadingPseudosPresentTheirOperand :=
  ⟨fun _ _ _ hh => ldts_presents hh, fun _ _ _ hh => ldent_presents hh, fun _ _ _ hh => ldstr_presents hh⟩

end Sys2Proof.Machine
end

section
/-! The alphabet (40_alphabet.md): what the two tables map (R130, R131, R133), and the lookup commands ENCSYM and DECSYM
(R134, R135) with their frame and their inverse law. -/

namespace Sys2Proof.Machine

/-! ### The tables -/

theorem encTable_getElem?_toNat (r : Rank) : encTable[r.toNat]? = some (sym r) := by
  rw [sym_eq_getElem]
  exact List.getElem?_eq_getElem _

theorem encTable_getElem?_eq_some_iff (r : Rank) (c : Byte) : encTable[r.toNat]? = some c ↔ c = sym r := by
  rw [encTable_getElem?_toNat, Option.some_inj, eq_comm]

/-- The last symbol is Z (40_alphabet.md R130). -/
theorem sym_toNat_le (r : Rank) : (sym r).toNat ≤ 0x5A := by
  have htable : ∀ c ∈ encTable, c.toNat ≤ 0x5A := by decide
  exact htable _ (sym_mem r)

/-- Settles O20: a table entry is a symbol, so the first part is R131 as the alphabet's law says it; the counts and the
unmapped codes are read off the 256 codes. -/
theorem decTableMapsExactly54Codes : Obligations.DecTableMapsExactly54Codes := by
  refine ⟨fun c r => ?_, by decide +kernel, by decide +kernel⟩
  simp only [rankOf_eq_some_iff, encTable_getElem?_eq_some_iff, exists_eq_left]

/-- Lowercasing letters keeps the order of the codes up to Z. -/
theorem lowercase_lt_lowercase {c c' : Byte} (hlt : c < c') (hle : c'.toNat ≤ 0x5A) :
    (if 0x41 ≤ c.toNat then c + 0x20 else c) < (if 0x41 ≤ c'.toNat then c' + 0x20 else c') := by
  split <;> split <;> bv_omega

/-- A mapped code with a lowercase letter turned to uppercase is its rank's symbol (40_alphabet.md R133). -/
theorem sym_eq_uppercase {c : Byte} {r : Rank} (h : rankOf c = some r) :
    sym r = if 0x61 ≤ c.toNat ∧ c.toNat ≤ 0x7A then c - 0x20 else c := by
  have hle := sym_toNat_le r
  rcases (rankOf_eq_some_iff c r).mp h with rfl | ⟨hA, hZ, rfl⟩
  · rw [if_neg (by omega)]
  · have hlower : (sym r + 0x20).toNat = (sym r).toNat + 0x20 := by bv_omega
    rw [if_pos (by omega), BitVec.add_sub_cancel]

/-- Settles O21: ENC_TABLE is increasing and ends at Z, and DEC_TABLE maps a symbol and its lowercase form only. -/
theorem tablesIncreaseInvertAndFold : Obligations.TablesIncreaseInvertAndFold := by
  refine ⟨fun r r' hlt => ?_, rankOf_sym, fun c r h => sym_eq_uppercase h⟩
  have hsym : sym r < sym r' := (sym_lt_iff r r').mpr hlt
  exact ⟨hsym, lowercase_lt_lowercase hsym (sym_toNat_le r')⟩

/-! ### The words of the lookup commands -/

/-- A word written as ARG shifted over OP is that word of format C (30_encoding.md R100). -/
theorem shifted_or_eq_formatC (op : BitVec 4) (arg : Byte) :
    (arg.setWidth 32 <<< 8) ||| op.setWidth 32 = formatC op arg := by
  have hop := op.isLt
  have harg := arg.isLt
  have hshift : arg.toNat <<< 8 % 2 ^ 32 = arg.toNat <<< 8 := by
    rw [Nat.shiftLeft_eq]
    omega
  apply BitVec.eq_of_toNat_eq
  rw [Laws.formatC_toNat, BitVec.toNat_or, BitVec.toNat_shiftLeft, BitVec.toNat_setWidth_of_le (by decide),
    BitVec.toNat_setWidth_of_le (by decide), hshift, ← Nat.shiftLeft_add_eq_or_of_lt (by omega), Nat.shiftLeft_eq]

theorem decode_encsym_word (arg : Byte) :
    decode ((arg.setWidth 32 <<< 8) ||| 0x00000008) = .instr (.encsym arg.toNat) := by
  have hword : (arg.setWidth 32 <<< 8) ||| 0x00000008 = encode (.encsym arg.toNat) := by
    rw [encode, BitVec.ofNat_toNat, BitVec.setWidth_eq]
    exact shifted_or_eq_formatC 0x8 arg
  rw [hword, decode_encode_encsym, Nat.mod_eq_of_lt arg.isLt]

theorem decode_decsym_word (arg : Byte) : decode ((arg.setWidth 32 <<< 8) ||| 0x00000009) = .instr (.decsym arg) := by
  have hword : (arg.setWidth 32 <<< 8) ||| 0x00000009 = encode (.decsym arg) := shifted_or_eq_formatC 0x9 arg
  rw [hword, decode_encode_decsym]

/-! ### What the lookup commands do -/

theorem exec_encsym_of_gt {rank : Nat} (h : 31 < rank) (s : State) :
    exec (.encsym rank) s = .next (raise .outOfRange s) := by
  rw [exec, execEncsym, if_pos h]

theorem exec_encsym_toNat (r : Rank) (s : State) :
    exec (.encsym r.toNat) s = .next (succeed (s.set .symOut ((sym r).setWidth 32))) := by
  have hle : ¬ 31 < r.toNat := by omega
  rw [exec, execEncsym, if_neg hle, BitVec.ofNat_toNat, BitVec.setWidth_eq]

theorem exec_decsym_of_none {char : Byte} (h : rankOf char = none) (s : State) :
    exec (.decsym char) s = .next (raise .illegalSymbol s) := by
  rw [exec, execDecsym, h]

theorem exec_decsym_of_some {char : Byte} {r : Rank} (h : rankOf char = some r) (s : State) :
    exec (.decsym char) s = .next (succeed (s.set .symOut (r.setWidth 32))) := by
  rw [exec, execDecsym, h]

/-- A rank number up to 31 is a rank. -/
theorem exists_rank_of_le {rank : Nat} (h : rank ≤ 31) : ∃ r : Rank, r.toNat = rank :=
  ⟨BitVec.ofNat 5 rank, (BitVec.toNat_ofNat rank 5).trans (Nat.mod_eq_of_lt (by omega))⟩

theorem get_symOut_lookup (s : State) (v : Word) : (succeed (s.set .symOut v)).get .symOut = v := by
  rw [get_succeed_of_ne _ (by decide), State.get_set, if_pos rfl]

theorem succeeded_lookup (s : State) (v : Word) : Succeeded [.symOut] s (succeed (s.set .symOut v)) :=
  succeeded_succeed (changedOnly_symOut s v) (sameOutside_set s .symOut v)

/-- Settles O22: a rank number is above 31, or is a rank and has its symbol in the table. -/
theorem encsymLooksUpTheSymbol : Obligations.EncsymLooksUpTheSymbol := by
  refine ⟨decode_encsym_word, fun rank s => ?_⟩
  rcases Nat.lt_or_ge 31 rank with hgt | hle
  · exact ⟨_, exec_encsym_of_gt hgt s, fun _ => failed_raise _ s, fun hle => absurd hgt (Nat.not_lt.mpr hle)⟩
  · obtain ⟨r, rfl⟩ := exists_rank_of_le hle
    refine ⟨_, exec_encsym_toNat r s, fun hgt => absurd hgt (Nat.not_lt.mpr hle), fun _ => ?_⟩
    exact ⟨succeeded_lookup s _, sym r, encTable_getElem?_toNat r, get_symOut_lookup s _⟩

/-- Settles O23: a code is unmapped or has one rank. -/
theorem decsymLooksUpTheRank : Obligations.DecsymLooksUpTheRank := by
  refine ⟨decode_decsym_word, fun char s => ?_⟩
  cases hr : rankOf char with
  | none => exact ⟨_, exec_decsym_of_none hr s, fun _ => failed_raise _ s, nofun⟩
  | some r =>
    refine ⟨_, exec_decsym_of_some hr s, nofun, fun r' heq => ?_⟩
    obtain rfl := Option.some_inj.mp heq
    exact ⟨succeeded_lookup s _, get_symOut_lookup s _⟩

/-- A character code is read back from SYM_OUT's low byte (10_state.md R43). -/
theorem extract_low_setWidth (c : Byte) : (c.setWidth 32).extractLsb' 0 8 = c := by
  have hc := c.isLt
  apply BitVec.eq_of_toNat_eq
  rw [toNat_extract, BitVec.toNat_setWidth_of_le (by decide)]
  omega

/-- Settles O24: the code in SYM_OUT is the rank's symbol, which DEC_TABLE maps back to the rank. -/
theorem decsymUndoesEncsym : Obligations.DecsymUndoesEncsym := by
  intro rank s hle
  obtain ⟨r, rfl⟩ := exists_rank_of_le hle
  have hrank : rankOf (((succeed (s.set .symOut ((sym r).setWidth 32))).get .symOut).extractLsb' 0 8) = some r := by
    rw [get_symOut_lookup, extract_low_setWidth, rankOf_sym]
  refine ⟨_, _, exec_encsym_toNat r s, exec_decsym_of_some hrank _, err_succeed _, ?_⟩
  rw [get_symOut_lookup, BitVec.toNat_setWidth_of_le (by decide)]

/-! ### Their frame -/

/-- A zero-extended byte or rank leaves SYM_OUT's hardwired bits 31:8 at 0 (10_state.md R43). -/
theorem extract_high_setWidth {n : Nat} (hn : n ≤ 8) (x : BitVec n) : (x.setWidth 32).extractLsb' 8 24 = 0 := by
  have hx : x.toNat < 2 ^ 8 := x.isLt.trans_le (Nat.pow_le_pow_right (by decide) hn)
  apply BitVec.eq_of_toNat_eq
  rw [toNat_extract, BitVec.toNat_setWidth_of_le (by omega), Nat.div_eq_of_lt hx]
  rfl

/-- What a lookup does: it raises an error, or writes SYM_OUT alone, with its hardwired bits 0, and succeeds. -/
theorem lookup_result {i : Instr} (hi : (∃ r, i = .encsym r) ∨ ∃ c, i = .decsym c) (s : State) :
    ∃ t, exec i s = .next t ∧
      ((∃ e, t = raise e s) ∨ ∃ v : Word, v.extractLsb' 8 24 = 0 ∧ t = succeed (s.set .symOut v)) := by
  rcases hi with ⟨rank, rfl⟩ | ⟨char, rfl⟩
  · rcases Nat.lt_or_ge 31 rank with hgt | hle
    · exact ⟨_, exec_encsym_of_gt hgt s, .inl ⟨_, rfl⟩⟩
    · obtain ⟨r, rfl⟩ := exists_rank_of_le hle
      exact ⟨_, exec_encsym_toNat r s, .inr ⟨_, extract_high_setWidth (by decide) _, rfl⟩⟩
  · cases hr : rankOf char with
    | none => exact ⟨_, exec_decsym_of_none hr s, .inl ⟨_, rfl⟩⟩
    | some r => exact ⟨_, exec_decsym_of_some hr s, .inr ⟨_, extract_high_setWidth (by decide) _, rfl⟩⟩

/-- Settles O43: an error leaves every register but STATUS, and a success writes a zero-extended value to SYM_OUT. -/
theorem lookupCommandsFrame : Obligations.LookupCommandsFrame := by
  intro i s t hi h
  obtain ⟨u, hu, hresult⟩ := lookup_result hi s
  cases hu.symm.trans h
  rcases hresult with ⟨e, rfl⟩ | ⟨v, hv, rfl⟩
  · obtain ⟨-, hchanged, houtside⟩ := failed_raise e s
    refine ⟨hchanged.mono nofun, houtside, fun hs => ?_⟩
    rw [get_raise_of_ne e s (by decide), hs]
  · obtain ⟨-, hchanged, houtside⟩ := succeeded_lookup s v
    refine ⟨hchanged, houtside, fun _ => ?_⟩
    rw [get_symOut_lookup, hv]

end Sys2Proof.Machine
end

section
/-! The bit packer (41_packer.md): `Encode` and `Decode` in exact arithmetic (R150 to R155), the laws that follow (R157,
R159 to R161), each read off the number that a string's ranks write in base 32, and DECODE (R156). -/

namespace Sys2Proof.Machine

open Sys2Proof.Laws (num)

/-! ### Encode -/

theorem group_packed (t : BitVec 48) {e : List Byte} (he : e.length = 10) (i : Nat) :
    (group (padValue (packValue t e)) i).toNat = (t.toNat * 2 ^ 80 + be e) / 2 ^ (125 - 5 * i) % 32 := by
  rw [group_toNat, padValue_toNat, packValue_toNat t he]

theorem encodeStr_eq_map_sym (t : BitVec 48) (e : List Byte) :
    encodeStr t e = (List.ofFn fun i : Fin 26 => group (padValue (packValue t e)) i.val).map sym := by
  rw [List.map_ofFn]
  rfl

theorem encodeStr_getElem? (t : BitVec 48) (e : List Byte) {i : Nat} (hi : i < 26) :
    (encodeStr t e)[i]? = encTable[(group (padValue (packValue t e)) i).toNat]? := by
  rw [encTable_getElem?_toNat, encodeStr, List.getElem?_ofFn, dif_pos hi]

/-- Settles O25: group `i` is digit `i` of the packed value in base 32, and a symbol is its rank's table entry. -/
theorem encodeSlicesThePaddedValue : Obligations.EncodeSlicesThePaddedValue := by
  refine fun t e he => ⟨packValue_toNat t he, padValue_toNat _, encodeStr_length t e, fun i hi => ?_⟩
  refine ⟨group_packed t he i, ?_⟩
  rw [encodeStr_getElem? t e hi, group_packed t he i]

/-! ### The number of a string's ranks -/

/-- The number that the ranks of the characters write in base 32, the first the most significant (R154). -/
def rankNumber (str : List Byte) : Nat := num 32 ((str.map rankOfValid).map BitVec.toNat)

theorem paddedOf_eq_rankNumber {str : List Byte} (h : str.length = 26) : (paddedOf str).toNat = rankNumber str :=
  unslice_toNat (by simpa using h)

theorem rankNumber_lt (str : List Byte) : rankNumber str < 32 ^ str.length := by
  have hlt := Laws.num_lt (ranks_lt (str.map rankOfValid))
  rwa [List.length_map, List.length_map] at hlt

theorem rankNumber_cons (c : Byte) (rest : List Byte) :
    rankNumber (c :: rest) = (rankOfValid c).toNat * 32 ^ rest.length + rankNumber rest := by
  rw [rankNumber, List.map_cons, List.map_cons, Laws.num_cons, List.length_map, List.length_map, rankNumber]

theorem rankNumber_append (a b : List Byte) : rankNumber (a ++ b) = rankNumber a * 32 ^ b.length + rankNumber b := by
  rw [rankNumber, List.map_append, List.map_append, Laws.num_append, List.length_map, List.length_map, rankNumber,
    rankNumber]

theorem rankNumber_eq_sum {str : List Byte} {n : Nat} (h : str.length = n) :
    rankNumber str = ∑ i : Fin n, (rankOfValid (str.getD i.val 0)).toNat * 32 ^ (n - 1 - i.val) := by
  have hdigits : ((str.map rankOfValid).map BitVec.toNat).length = n := by simpa using h
  subst h
  rw [rankNumber, Laws.num_eq_sum, ← Equiv.sum_comp (finCongr hdigits.symm)]
  refine Finset.sum_congr rfl fun i _ => ?_
  simp

/-! ### Decode -/

theorem paddedOf_eq_paddedSum {str : List Byte} (h : str.length = 26) : (paddedOf str).toNat = paddedSum str :=
  paddedOf_eq_sum h

theorem timestampOf_eq_div {str : List Byte} (h : str.length = 26) :
    (timestampOf str).toNat = paddedSum str % 2 ^ 128 / 2 ^ 80 := by
  rw [timestampOf_toNat, valueOf_toNat, paddedOf_eq_paddedSum h]

theorem be_entropyOf_eq_mod {str : List Byte} (h : str.length = 26) : be (entropyOf str) = paddedSum str % 2 ^ 80 := by
  rw [be_entropyOf, valueOf_toNat, paddedOf_eq_paddedSum h]
  omega

/-- Any ranks are those of the string of their symbols. -/
theorem unslice_eq_paddedOf (g : List Rank) : unslice g = paddedOf (g.map sym) := by
  simp [paddedOf, Function.comp_def]

theorem unslice_eq_sum (g : Fin 26 → Rank) :
    (unslice (List.ofFn g)).toNat = ∑ i : Fin 26, (g i).toNat * 2 ^ (125 - 5 * i.val) := by
  rw [unslice_eq_paddedOf, List.map_ofFn, paddedOf_eq_sum List.length_ofFn]
  refine Finset.sum_congr rfl fun i _ => ?_
  rw [List.getD_eq_getElem _ _ (by simp), List.getElem_ofFn, Function.comp, rankOfValid_sym]

/-- Settles O26: the sum of R154 is the padded value, and the fields are its parts below bit 128. -/
theorem decodeDropsTheTopTwoBits : Obligations.DecodeDropsTheTopTwoBits := by
  refine ⟨unslice_eq_sum, fun str hvalid => ?_⟩
  obtain ⟨hlen, -⟩ := hvalid
  exact ⟨paddedOf_eq_paddedSum hlen, timestampOf_eq_div hlen, entropyOf_length str, be_entropyOf_eq_mod hlen⟩

/-! ### The field boundaries -/

/-- The boundary at bit 80 falls between characters 9 and 10, because 16 ranks have 80 bits (R157). -/
theorem valueOf_append {a b : List Byte} (ha : a.length = 10) (hb : b.length = 16) :
    (valueOf (a ++ b)).toNat = rankNumber a % 2 ^ 48 * 2 ^ 80 + rankNumber b := by
  have hlt := rankNumber_lt b
  rw [valueOf_toNat, paddedOf_eq_rankNumber (by simp [ha, hb]), rankNumber_append]
  rw [hb] at hlt ⊢
  omega

theorem timestampOf_append {a b : List Byte} (ha : a.length = 10) (hb : b.length = 16) :
    (timestampOf (a ++ b)).toNat = rankNumber a % 2 ^ 48 := by
  have hlt := rankNumber_lt b
  rw [timestampOf_toNat, valueOf_append ha hb]
  rw [hb] at hlt
  omega

theorem be_entropyOf_append {a b : List Byte} (ha : a.length = 10) (hb : b.length = 16) :
    be (entropyOf (a ++ b)) = rankNumber b := by
  have hlt := rankNumber_lt b
  rw [be_entropyOf, valueOf_append ha hb]
  rw [hb] at hlt
  omega

/-- Settles O27: the string is cut after its tenth character. -/
theorem timestampIsTheFirstTenCharacters : Obligations.TimestampIsTheFirstTenCharacters := by
  rintro str ⟨hlen, -⟩
  have hhead : (str.take 10).length = 10 := by simp [hlen]
  have htail : (str.drop 10).length = 16 := by simp [hlen]
  have hts : (timestampOf str).toNat = rankNumber (str.take 10) % 2 ^ 48 := by
    rw [← timestampOf_append hhead htail, List.take_append_drop]
  have hent : be (entropyOf str) = rankNumber (str.drop 10) := by
    rw [← be_entropyOf_append hhead htail, List.take_append_drop]
  constructor
  · rw [hts, rankNumber_eq_sum hhead]
    refine congrArg (· % 2 ^ 48) (Finset.sum_congr rfl fun i _ => ?_)
    simp [List.getD_eq_getElem?_getD]
  · rw [hent, rankNumber_eq_sum htail]
    refine Finset.sum_congr rfl fun i _ => ?_
    simp [List.getD_eq_getElem?_getD]

/-! ### The top symbol -/

theorem valueOf_cons (c : Byte) {rest : List Byte} (h : rest.length = 25) :
    (valueOf (c :: rest)).toNat = (rankOfValid c).toNat % 8 * 2 ^ 125 + rankNumber rest := by
  have hlt := rankNumber_lt rest
  rw [valueOf_toNat, paddedOf_eq_rankNumber (by simp [h]), rankNumber_cons]
  rw [h] at hlt ⊢
  omega

/-- The two bits that decoding drops are 0 exactly where the first rank is 0..7. -/
theorem firstRankBelow8_iff {str : List Byte} (h : str.length = 26) :
    FirstRankBelow8 str ↔ (paddedOf str).toNat < 2 ^ 128 := by
  cases str with
  | nil => cases h
  | cons c rest =>
    have hrest : rest.length = 25 := by simpa using h
    have hlt := rankNumber_lt rest
    rw [FirstRankBelow8, List.headD_cons, paddedOf_eq_rankNumber h, rankNumber_cons]
    rw [hrest] at hlt ⊢
    omega

theorem padValue_valueOf {str : List Byte} (hlen : str.length = 26) (h : FirstRankBelow8 str) :
    padValue (valueOf str) = paddedOf str := by
  apply BitVec.eq_of_toNat_eq
  rw [padValue_toNat, valueOf_toNat, Nat.mod_eq_of_lt ((firstRankBelow8_iff hlen).mp h)]

theorem paddedOf_encodeStr (t : BitVec 48) (e : List Byte) : paddedOf (encodeStr t e) = padValue (packValue t e) := by
  rw [paddedOf, map_rank_encodeStr, unslice_groups]

theorem firstRankBelow8_encodeStr (t : BitVec 48) (e : List Byte) : FirstRankBelow8 (encodeStr t e) := by
  rw [firstRankBelow8_iff (encodeStr_length t e), paddedOf_encodeStr, padValue_toNat]
  exact (packValue t e).isLt

/-- Settles O30: only the first rank modulo 8 enters the value, and an encoded value has its top two bits 0. -/
theorem firstRankDecodesModulo8 : Obligations.FirstRankDecodesModulo8 := by
  refine ⟨fun c c' rest hvalid _ hmod => ?_, fun t e _ => firstRankBelow8_encodeStr t e⟩
  have hrest : rest.length = 25 := by simpa using hvalid.1
  have hvalue : valueOf (c :: rest) = valueOf (c' :: rest) :=
    BitVec.eq_of_toNat_eq (by rw [valueOf_cons c hrest, valueOf_cons c' hrest, hmod])
  simp only [timestampOf, entropyOf, hvalue, and_self]

/-! ### The round trip -/

theorem timestampOf_encodeStr (t : BitVec 48) {e : List Byte} (he : e.length = 10) :
    timestampOf (encodeStr t e) = t := by
  have hlt := be_lt_of_length_10 he
  apply BitVec.eq_of_toNat_eq
  rw [timestampOf_toNat, valueOf_encodeStr, packValue_toNat t he]
  omega

theorem entropyOf_encodeStr (t : BitVec 48) {e : List Byte} (he : e.length = 10) :
    entropyOf (encodeStr t e) = e := by
  have hlt := be_lt_of_length_10 he
  refine be_inj (by rw [entropyOf_length, he]) ?_
  rw [be_entropyOf, valueOf_encodeStr, packValue_toNat t he]
  omega

theorem map_sym_map_rank (str : List Byte) : (str.map rankOfValid).map sym = str.map fold := by
  rw [List.map_map]
  rfl

theorem encodeStr_of_string {str : List Byte} (hlen : str.length = 26) (h : FirstRankBelow8 str) :
    encodeStr (timestampOf str) (entropyOf str) = str.map fold := by
  rw [encodeStr_eq_map_sym, packValue_of_string, padValue_valueOf hlen h, paddedOf, groups_unslice (by simp [hlen]),
    map_sym_map_rank]

theorem Uppercase.map_fold {str : List Byte} (h : Uppercase str) : str.map fold = str :=
  (List.map_congr_left fun c hc => fold_of_mem (h c hc)).trans (List.map_id str)

/-- Settles O28: slicing and unslicing undo each other, and what they do not touch is the dropped bits and the case of
letters. -/
theorem roundTripOfEncodeAndDecode : Obligations.RoundTripOfEncodeAndDecode := by
  refine ⟨fun t e he => ⟨timestampOf_encodeStr t he, entropyOf_encodeStr t he⟩, fun str hvalid hfirst => ?_⟩
  have hfold := encodeStr_of_string hvalid.1 hfirst
  exact ⟨hfold, fun hupper => hfold.trans hupper.map_fold⟩

/-! ### Order -/

/-- The symbols increase with their ranks, so uppercase strings of one length compare as their ranks' numbers do. -/
theorem lt_iff_rankNumber_lt {s₁ s₂ : List Byte} (hlen : s₁.length = s₂.length) (h₁ : Uppercase s₁)
    (h₂ : Uppercase s₂) : s₁ < s₂ ↔ rankNumber s₁ < rankNumber s₂ := by
  calc s₁ < s₂ ↔ (s₁.map rankOfValid).map sym < (s₂.map rankOfValid).map sym := by
        rw [map_sym_map_rank, map_sym_map_rank, h₁.map_fold, h₂.map_fold]
    _ ↔ rankNumber s₁ < rankNumber s₂ := by
        rw [map_sym_lt_iff, Laws.lex_iff_num_lt (ranks_lt _) (ranks_lt _) (by simpa using hlen), rankNumber, rankNumber]

theorem lt_iff_paddedOf_lt {s₁ s₂ : List Byte} (hv₁ : ValidString s₁) (hv₂ : ValidString s₂) (h₁ : Uppercase s₁)
    (h₂ : Uppercase s₂) : s₁ < s₂ ↔ (paddedOf s₁).toNat < (paddedOf s₂).toNat := by
  rw [paddedOf_eq_rankNumber hv₁.1, paddedOf_eq_rankNumber hv₂.1, lt_iff_rankNumber_lt (hv₁.1.trans hv₂.1.symm) h₁ h₂]

/-- Values compare as the pairs of their fields do. -/
theorem valueOf_lt_iff (s₁ s₂ : List Byte) :
    (valueOf s₁).toNat < (valueOf s₂).toNat ↔ (timestampOf s₁).toNat < (timestampOf s₂).toNat ∨
      ((timestampOf s₁).toNat = (timestampOf s₂).toNat ∧ be (entropyOf s₁) < be (entropyOf s₂)) := by
  rw [timestampOf_toNat, timestampOf_toNat, be_entropyOf, be_entropyOf]
  omega

/-- Settles O29: string order is the order of `P`, and with a first rank of 0..7 `P` is `V`. -/
theorem stringOrderIsNumericOrder : Obligations.StringOrderIsNumericOrder := by
  refine ⟨fun s₁ s₂ hv₁ hv₂ h₁ h₂ => lt_iff_paddedOf_lt hv₁ hv₂ h₁ h₂, fun s₁ s₂ hv₁ hv₂ h₁ h₂ hr₁ hr₂ => ?_⟩
  have hvalue : s₁ < s₂ ↔ (valueOf s₁).toNat < (valueOf s₂).toNat := by
    rw [lt_iff_paddedOf_lt hv₁ hv₂ h₁ h₂, ← padValue_valueOf hv₁.1 hr₁, ← padValue_valueOf hv₂.1 hr₂, padValue_toNat,
      padValue_toNat]
  exact ⟨hvalue, hvalue.trans (valueOf_lt_iff s₁ s₂)⟩

/-! ### DECODE -/

theorem exec_decode_of_error {s : State} {e : ErrorKind} (h : validate s = some e) :
    exec .decode s = .next (raise e s) := by
  rw [exec, execDecode, h]

theorem exec_decode_of_valid {s : State} (h : validate s = none) :
    exec .decode s = .next (succeed ((s.writeTs (timestampOf s.strChars)).writeEnt (entropyOf s.strChars))) := by
  rw [exec, execDecode, h]

/-- DECODE's two results as numbers, TS_OUT untouched by the writing of ENT_OUT (10_state.md R40, R41). -/
theorem tsOut_decoded (s : State) (t : BitVec 48) (e : List Byte) :
    ((succeed ((s.writeTs t).writeEnt e)).get .tsOutHi).toNat * 2 ^ 32 +
      ((succeed ((s.writeTs t).writeEnt e)).get .tsOutLo).toNat = t.toNat := by
  rw [get_succeed_of_ne _ (by decide), get_succeed_of_ne _ (by decide), State.get_writeEnt, State.get_writeEnt]
  exact tsOut_writeTs s t

theorem entOut_succeed_writeEnt (s : State) {e : List Byte} (he : e.length = 10) :
    ((succeed (s.writeEnt e)).get (.entOut 0)).toNat * 2 ^ 64 +
      ((succeed (s.writeEnt e)).get (.entOut 1)).toNat * 2 ^ 32 +
      ((succeed (s.writeEnt e)).get (.entOut 2)).toNat = be e * 2 ^ 16 := by
  rw [get_succeed_of_ne _ (by decide), get_succeed_of_ne _ (by decide), get_succeed_of_ne _ (by decide)]
  exact entOut_writeEnt s he

/-- GETTS leaves the string operand, so GETENT after it ends as DECODE does (R156). -/
theorem getts_then_getent (s : State) : ∃ u, exec .getts s = .next u ∧ exec .getent u = exec .decode s := by
  have hgetts := exec_eq_finish .getts s
  have hanswer : answerOf .getent (finish (answerOf .getts s) s) = answerOf .getent s :=
    answerOf_congr (fun r hr => exec_get_of_writable hgetts (writable_of_mem_operandRegs hr)) nofun
  refine ⟨_, hgetts, ?_⟩
  rw [exec_eq_finish, exec_eq_finish, inputOf_of_ne _ (by decide), inputOf_of_ne _ (by decide),
    inputOf_of_ne _ (by decide), hanswer]
  congr 1
  simp only [answerOf, onString]
  cases validate s with
  | some e => exact raise_raise e s
  | none =>
    have hkeep := CommandResult.writeTo_succeed (.entropy (entropyOf s.strChars)) (s.writeTs (timestampOf s.strChars))
    exact (congrArg succeed hkeep).trans (succeed_succeed _)

/-- Settles O40: DECODE ends by `Validate`'s answer, and GETTS and GETENT write its two results one after the other. -/
theorem decodeIsGettsAndGetentTogether : Obligations.DecodeIsGettsAndGetentTogether := by
  refine ⟨by decide, fun s => ?_⟩
  obtain ⟨u, hgetts, hgetent⟩ := getts_then_getent s
  cases hvalidate : validate s with
  | some e =>
    have hdecode := exec_decode_of_error hvalidate
    refine ⟨_, hdecode, fun e' he => ?_, nofun, u, hgetts, hgetent.trans hdecode⟩
    cases he
    exact failed_raise e s
  | none =>
    have hdecode := exec_decode_of_valid hvalidate
    refine ⟨_, hdecode, nofun, fun _ => ⟨?_, ?_, ?_⟩, u, hgetts, hgetent.trans hdecode⟩
    · exact succeeded_succeed (changedOnly_writeTs_writeEnt s _ _)
        ((sameOutside_writeTs s _).trans (sameOutside_writeEnt _ _))
    · rw [tsOut_decoded, timestampOf_eq_div (strChars_length s)]
    · rw [entOut_succeed_writeEnt _ (entropyOf_length _), be_entropyOf_eq_mod (strChars_length s)]

end Sys2Proof.Machine
end

section
/-! The validator (42_validator.md): `Validate` as its first failing check (R180), what its answer depends on (R184),
ISVALID with its frame (R182), and validity as the precondition of the decoding commands (R183). -/

namespace Sys2Proof.Machine

/-! ### `Validate` by positions -/

/-- Character `i` of the string operand (10_state.md R39). -/
theorem strChars_getD (s : State) (i : Fin 26) :
    s.strChars.getD i.val 0 = byteOf (s.get (.strIn ⟨i.val / 4, by omega⟩)) i.val := by
  have hi : i.val < s.strChars.length := by rw [strChars_length]; exact i.isLt
  rw [List.getD_eq_getElem _ _ hi]
  exact List.getElem_ofFn hi

theorem mem_strChars_iff {s : State} {c : Byte} : c ∈ s.strChars ↔ ∃ i : Fin 26, s.strChars.getD i.val 0 = c := by
  simp only [strChars_getD]
  exact List.mem_ofFn

/-- The last check fails where some position holds an unmapped character (42_validator.md R180). -/
theorem any_unmapped_iff (s : State) :
    (s.strChars.any fun c => (rankOf c).isNone) = true ↔ ∃ i : Fin 26, rankOf (s.strChars.getD i.val 0) = none := by
  simp only [List.any_eq_true, Option.isNone_iff_eq_none, mem_strChars_iff, exists_exists_eq_and]

/-- The checks of `Validate` in their order, on the numbers in STR_CTRL and on positions (42_validator.md R180). -/
theorem validate_eq_ite (s : State) :
    validate s =
      if ¬ (s.get .strCtrl).toNat / 2 ^ 31 = 1 then some .missingInput
      else if (s.get .strCtrl).toNat % 2 ^ 16 ≠ 26 then some .invalidLength
      else if ∃ i : Fin 26, rankOf (s.strChars.getD i.val 0) = none then some .illegalSymbol
      else none := by
  have hlen : lenField (s.get .strCtrl) = 26 ↔ (s.get .strCtrl).toNat % 2 ^ 16 = 26 :=
    lenField_eq_iff _ 26 (by decide)
  simp only [validate, ← presentField_iff, ne_eq, hlen, ← any_unmapped_iff, Bool.not_eq_true]

/-- Settles O32: the four clauses are the branches of `Validate`. -/
theorem validateReturnsTheFirstFailure : Obligations.ValidateReturnsTheFirstFailure := by
  intro s present len
  simp only [← strChars_getD]
  refine ⟨fun hp => ?_, fun hp hl => ?_, fun hp hl hbad => ?_, fun hp hl hgood => ?_⟩ <;> rw [validate_eq_ite]
  · exact if_pos hp
  · rw [if_neg (not_not_intro hp), if_pos hl]
  · rw [if_neg (not_not_intro hp), if_neg (not_not_intro hl), if_pos hbad]
  · rw [if_neg (not_not_intro hp), if_neg (not_not_intro hl), if_neg (not_exists.mpr hgood)]

/-! ### What validity depends on -/

/-- An uppercase letter and its lowercase form stand for the same rank, or for none (40_alphabet.md R131). -/
theorem rankOf_lowercase {c : Byte} (hA : 0x41 ≤ c.toNat) (hZ : c.toNat ≤ 0x5A) : rankOf (c + 0x20) = rankOf c := by
  refine Option.ext fun r => ?_
  have hsym := sym_toNat_le r
  have hne : c + 0x20 ≠ sym r := by bv_omega
  rw [rankOf_eq_some_iff, rankOf_eq_some_iff]
  constructor
  · rintro (h | ⟨-, -, h⟩)
    · exact absurd h hne
    · exact .inl ((BitVec.add_left_inj _).mp h)
  · rintro (rfl | ⟨hA', -, rfl⟩)
    · exact .inr ⟨hA, hZ, rfl⟩
    · bv_omega

/-- Two characters that differ in case at most stand for the same rank, or for none (40_alphabet.md R131). -/
theorem rankOf_of_case_variant {a b : Byte}
    (h : a = b ∨ (0x41 ≤ a.toNat ∧ a.toNat ≤ 0x5A ∧ b = a + 0x20) ∨
      (0x41 ≤ b.toNat ∧ b.toNat ≤ 0x5A ∧ a = b + 0x20)) :
    rankOf a = rankOf b := by
  rcases h with rfl | ⟨hA, hZ, rfl⟩ | ⟨hA, hZ, rfl⟩
  · rfl
  · exact (rankOf_lowercase hA hZ).symm
  · exact rankOf_lowercase hA hZ

/-- Where LEN is not 26 no character is read (42_validator.md R184). -/
theorem validate_congr_of_length {s t : State} (hctrl : s.get .strCtrl = t.get .strCtrl)
    (hlen : (s.get .strCtrl).toNat % 2 ^ 16 ≠ 26) : validate s = validate t := by
  rw [validate_eq_ite, validate_eq_ite, ← hctrl, if_pos hlen, if_pos hlen]

/-- Of the characters only their membership in the alphabet is read (42_validator.md R184). -/
theorem validate_congr_of_mapped {s t : State} (hctrl : s.get .strCtrl = t.get .strCtrl)
    (h : ∀ i : Fin 26, (rankOf (s.strChars.getD i.val 0)).isSome = (rankOf (t.strChars.getD i.val 0)).isSome) :
    validate s = validate t := by
  have hnone (i : Fin 26) : rankOf (s.strChars.getD i.val 0) = none ↔ rankOf (t.strChars.getD i.val 0) = none := by
    rw [← Option.not_isSome_iff_eq_none, h i, Option.not_isSome_iff_eq_none]
  simp only [validate_eq_ite, hctrl, hnone]

/-- Settles O55: a change of case keeps every rank, so it keeps which positions hold mapped characters. -/
theorem validityDependsOnMembershipOnly : Obligations.ValidityDependsOnMembershipOnly := by
  intro s1 s2 hctrl
  refine ⟨validate_congr_of_length hctrl, validate_congr_of_mapped hctrl, fun hcase => ?_⟩
  exact validate_congr_of_mapped hctrl fun i => congrArg Option.isSome (rankOf_of_case_variant (hcase i))

/-! ### ISVALID -/

theorem exec_isvalid (s : State) : exec .isvalid s = .next (succeed (s.setValid (validate s).isNone)) := rfl

/-- Writing VALID and then ERR keeps every register but STATUS. -/
theorem get_succeed_setValid_of_ne (s : State) (v : Bool) {r : Reg} (hr : r ≠ .status) :
    (succeed (s.setValid v)).get r = s.get r := by
  rw [get_succeed_of_ne _ hr, State.get_setValid, if_neg hr]

/-- Writing VALID and then ERR keeps every bit of STATUS but 3:0 and 8 (10_state.md R45). -/
theorem getLsbD_status_succeed_setValid (s : State) (v : Bool) {i : Nat} (hi : 4 ≤ i) (h8 : i ≠ 8) :
    ((succeed (s.setValid v)).get .status).getLsbD i = (s.get .status).getLsbD i := by
  rw [get_succeed, if_pos rfl, State.get_setValid, if_pos rfl, getLsbD_statusWithErr, if_neg (by omega),
    getLsbD_statusWithValid, if_neg h8]

theorem sameOutside_succeed_setValid (s : State) (v : Bool) : SameOutside s (succeed (s.setValid v)) :=
  ⟨rfl, rfl, rfl, rfl⟩

/-- A field of STATUS that meets neither ERR nor VALID. -/
theorem extract_status_succeed_setValid (s : State) (v : Bool) {lo n : Nat} (hlo : 4 ≤ lo)
    (h8 : ∀ i < n, lo + i ≠ 8) :
    ((succeed (s.setValid v)).get .status).extractLsb' lo n = (s.get .status).extractLsb' lo n := by
  refine BitVec.eq_of_getLsbD_eq fun i hi => ?_
  rw [BitVec.getLsbD_extractLsb', BitVec.getLsbD_extractLsb',
    getLsbD_status_succeed_setValid s v (by omega) (h8 i hi)]

/-- Settles O33: ISVALID writes VALID from `Validate`'s answer, then ERR. -/
theorem isvalidReportsValidity : Obligations.IsvalidReportsValidity := by
  refine ⟨by decide, fun s => ⟨_, exec_isvalid s, err_succeed _, ?_, fun _ => get_succeed_setValid_of_ne s _,
    extract_status_succeed_setValid s _ (by decide) (by omega),
    extract_status_succeed_setValid s _ (by decide) (by omega), sameOutside_succeed_setValid s _⟩⟩
  rw [valid_succeed, State.valid_setValid, Option.isNone_iff_eq_none]

/-- The bits of STATUS outside the mask 0x10F are those outside ERR and VALID. -/
theorem getLsbD_not_statusMask {i : Nat} (hi : i < 32) :
    (~~~(0x10F : Word)).getLsbD i = decide (4 ≤ i ∧ i ≠ 8) := by
  have hall : ∀ i < 32, (~~~(0x10F : Word)).getLsbD i = decide (4 ≤ i ∧ i ≠ 8) := by decide
  exact hall i hi

/-- Settles O44: ISVALID's one answer is the state in which VALID and then ERR have been written. -/
theorem isvalidFrame : Obligations.IsvalidFrame := by
  intro s t h
  cases (exec_isvalid s).symm.trans h
  refine ⟨fun _ => get_succeed_setValid_of_ne s _, BitVec.eq_of_getLsbD_eq fun i hi => ?_,
    sameOutside_succeed_setValid s _⟩
  rw [BitVec.getLsbD_and, BitVec.getLsbD_and, getLsbD_not_statusMask hi]
  by_cases hkept : 4 ≤ i ∧ i ≠ 8
  · rw [getLsbD_status_succeed_setValid s _ hkept.1 hkept.2]
  · rw [decide_eq_false hkept, Bool.and_false, Bool.and_false]

/-! ### Validity and decoding -/

/-- PARSE, GETTS, GETENT and DECODE all begin with `Validate` (42_validator.md R183). -/
theorem answerOf_eq_onString {i : Instr} (hi : i = .parse ∨ i = .getts ∨ i = .getent ∨ i = .decode) (s : State) :
    ∃ r, answerOf i s = onString s r := by
  rcases hi with rfl | rfl | rfl | rfl <;> exact ⟨_, rfl⟩

/-- Settles O54: a string command and ISVALID both end by `Validate`'s answer. -/
theorem validityIsThePreconditionOfDecoding : Obligations.ValidityIsThePreconditionOfDecoding := by
  intro i s hi
  obtain ⟨r, hanswer⟩ := answerOf_eq_onString hi s
  refine ⟨_, _, exec_eq_finish i s, exec_isvalid s, fun hv => ?_, fun e hv => ?_⟩ <;>
    rw [hanswer, onString, hv, valid_succeed, State.valid_setValid]
  · exact ⟨err_succeed _, rfl⟩
  · exact ⟨err_raise e _, rfl⟩

end Sys2Proof.Machine
end

section
/-! The commands of the facade one by one: GENERATE (43_facade.md R200), RANDOM (R202, R203), PARSE (R205), GETTS (R207)
and GETENT (R208), each from the answer it writes. -/

namespace Sys2Proof.Machine

/-! ### A command by its answer -/

theorem exec_of_answer_error {i : Instr} {s : State} {e : ErrorKind} (h : answerOf i s = .error e) :
    exec i s = .next (raise e (inputOf i s)) := by
  rw [exec_eq_finish, h]
  rfl

theorem exec_of_answer_ok {i : Instr} {s : State} {r : CommandResult} (h : answerOf i s = .ok r) :
    exec i s = .next (succeed (r.writeTo (inputOf i s))) := by
  rw [exec_eq_finish, h]
  rfl

theorem onString_of_error {s : State} {e : ErrorKind} (h : validate s = some e) (r : CommandResult) :
    onString s r = .error e := by
  rw [onString, h]

theorem onString_of_valid {s : State} (h : validate s = none) (r : CommandResult) : onString s r = .ok r := by
  rw [onString, h]

/-- A string command completes with `Validate`'s error and nothing else written, or with its result written
(42_validator.md R183). -/
theorem exec_onString {i : Instr} (hi : i ≠ .random) {s : State} {r : CommandResult} (h : answerOf i s = onString s r) :
    ∃ t, exec i s = .next t ∧ (∀ e, validate s = some e → Failed e s t) ∧
      (validate s = none → t = succeed (r.writeTo s)) := by
  refine ⟨_, exec_eq_finish i s, fun e hv => ?_, fun hv => ?_⟩ <;> rw [inputOf_of_ne s hi, h]
  · rw [onString_of_error hv]
    exact failed_raise e s
  · rw [onString_of_valid hv]
    rfl

theorem exec_parse_of_valid {s : State} (h : validate s = none) :
    exec .parse s = .next (succeed (s.writeStr (s.strChars.map fold))) :=
  exec_of_answer_ok (i := .parse) (onString_of_valid h _)

theorem exec_getts_of_valid {s : State} (h : validate s = none) :
    exec .getts s = .next (succeed (s.writeTs (timestampOf s.strChars))) :=
  exec_of_answer_ok (i := .getts) (onString_of_valid h _)

theorem exec_getent_of_valid {s : State} (h : validate s = none) :
    exec .getent s = .next (succeed (s.writeEnt (entropyOf s.strChars))) :=
  exec_of_answer_ok (i := .getent) (onString_of_valid h _)

/-! ### The writing of a string -/

theorem succeeded_writeStr (s : State) (b : List Byte) : Succeeded strOutRegs s (succeed (s.writeStr b)) :=
  succeeded_succeed (changedOnly_writeStr s b) (sameOutside_writeStr s b)

theorem strOutChars_succeed_writeStr (s : State) {b : List Byte} (hb : b.length = 26) :
    (succeed (s.writeStr b)).strOutChars = b := by
  rw [strOutChars_succeed, strOutChars_writeStr s hb]

/-- The low half of STR_OUT6 is hardwired to 0 (10_state.md R42). -/
theorem strOut6_succeed_writeStr (s : State) {b : List Byte} (hb : b.length = 26) :
    ((succeed (s.writeStr b)).get (.strOut 6)).toNat % 2 ^ 16 = 0 := by
  rw [get_succeed_of_ne _ (by decide), strOut6_writeStr s hb]

theorem not_inRange_iff (ts : BitVec 64) : inRange ts = false ↔ 2 ^ 48 ≤ ts.toNat := by
  rw [← Bool.not_eq_true, inRange_iff, Nat.not_lt]

theorem toNat_timestamp_of_lt {ts : BitVec 64} (h : ts.toNat < 2 ^ 48) : (ts.extractLsb' 0 48).toNat = ts.toNat := by
  rw [toNat_extract]
  omega

/-- The success of GENERATE and of RANDOM: `Encode` of a 64-bit timestamp in range and of 10 bytes, in STR_OUT
(41_packer.md R153, 10_state.md R42). -/
theorem succeeded_encode (s : State) {ts : BitVec 64} {e : List Byte} (hts : ts.toNat < 2 ^ 48) (he : e.length = 10) :
    let t := succeed (s.writeStr (encodeStr (ts.extractLsb' 0 48) e))
    Succeeded strOutRegs s t ∧ (t.get (.strOut 6)).toNat % 2 ^ 16 = 0 ∧
      ∀ i : Nat, i < 26 → t.strOutChars[i]? = encTable[(ts.toNat * 2 ^ 80 + be e) / 2 ^ (125 - 5 * i) % 32]? := by
  refine ⟨succeeded_writeStr s _, strOut6_succeed_writeStr s (encodeStr_length _ _), fun i hi => ?_⟩
  rw [strOutChars_succeed_writeStr s (encodeStr_length _ _), encodeStr_getElem? _ _ hi, group_packed _ he,
    toNat_timestamp_of_lt hts]

/-! ### GENERATE -/

/-- GENERATE's checks in their order, on the numbers in its operand registers (R200). -/
theorem answerOf_generate (s : State) :
    answerOf .generate s =
      if 2 ^ 48 ≤ s.ts64.toNat then .error .outOfRange
      else if ¬ (s.get .entCtrl).toNat / 2 ^ 31 = 1 then .error .missingInput
      else if (s.get .entCtrl).toNat % 2 ^ 16 ≠ 10 then .error .invalidLength
      else .ok (.string (encodeStr (s.ts64.extractLsb' 0 48) s.entBytes)) := by
  have hlen : lenField (s.get .entCtrl) = 10 ↔ (s.get .entCtrl).toNat % 2 ^ 16 = 10 :=
    lenField_eq_iff _ 10 (by decide)
  simp only [answerOf, not_inRange_iff, ← presentField_iff, ne_eq, hlen, Bool.not_eq_true]

theorem answerOf_generate_of_operands {s : State} (hts : s.ts64.toNat < 2 ^ 48)
    (hpresent : (s.get .entCtrl).toNat / 2 ^ 31 = 1) (hlen : (s.get .entCtrl).toNat % 2 ^ 16 = 10) :
    answerOf .generate s = .ok (.string (encodeStr (s.ts64.extractLsb' 0 48) s.entBytes)) := by
  rw [answerOf_generate, if_neg (Nat.not_le.mpr hts), if_neg (not_not_intro hpresent), if_neg (not_not_intro hlen)]

/-- Settles O34: the four clauses are the branches of GENERATE's answer. -/
theorem generateEncodesItsOperands : Obligations.GenerateEncodesItsOperands := by
  refine ⟨by decide, fun s => ?_⟩
  simp only [← ts64_toNat]
  refine ⟨_, exec_eq_finish .generate s, fun hts => ?_, fun hts hp => ?_, fun hts hp hl => ?_, fun hts hp hl => ?_⟩
  · rw [answerOf_generate, if_pos hts]
    exact failed_raise _ s
  · rw [answerOf_generate, if_neg (Nat.not_le.mpr hts), if_pos hp]
    exact failed_raise _ s
  · rw [answerOf_generate, if_neg (Nat.not_le.mpr hts), if_neg (not_not_intro hp), if_pos hl]
    exact failed_raise _ s
  · rw [answerOf_generate_of_operands hts hp hl]
    exact succeeded_encode s hts (entBytes_length s)

/-! ### RANDOM -/

theorem takeDraw_of_draws {s : State} {d : Draw} {ds : List Draw} (h : s.draws = d :: ds) :
    takeDraw s = { s with draws := ds, drawCount := s.drawCount + 1 } := by
  rw [takeDraw, h, List.tail_cons]

theorem exec_random_of_draws {s : State} {d : Draw} {ds : List Draw} (h : s.draws = d :: ds) :
    exec .random s = .next (randomResult d { s with draws := ds, drawCount := s.drawCount + 1 }) := by
  rw [exec, execRandom, nextDraw_cons h, takeDraw_of_draws h]

/-- RANDOM's checks on the bytes it was given, in their order (R202). -/
theorem randomResult_bytes {d : Draw} {b : List Byte} (hd : d.entropy = .bytes b) (s : State) :
    randomResult d s =
      if 2 ^ 48 ≤ d.clock.toNat then raise .outOfRange s
      else if b.length ≠ 10 then raise .invalidLength s
      else succeed (s.writeStr (encodeStr (d.clock.extractLsb' 0 48) b)) := by
  simp only [randomResult, hd, not_inRange_iff]

/-- Settles O35: the four clauses are the branches of RANDOM's result. -/
theorem randomEncodesItsDraws : Obligations.RandomEncodesItsDraws := by
  refine ⟨by decide, fun s d ds hdraws => ⟨_, exec_random_of_draws hdraws, fun hd => ?_, fun b hd hc => ?_,
    fun b hd hc hl => ?_, fun b hd hc hl => ?_⟩⟩
  · rw [randomResult, hd]
    exact failed_raise _ _
  · rw [randomResult_bytes hd, if_pos hc]
    exact failed_raise _ _
  · rw [randomResult_bytes hd, if_neg (Nat.not_le.mpr hc), if_pos hl]
    exact failed_raise _ _
  · rw [randomResult_bytes hd, if_neg (Nat.not_le.mpr hc), if_neg (not_not_intro hl)]
    exact succeeded_encode _ hc hl

theorem sameOutside_finish (a : Except ErrorKind CommandResult) (s : State) : SameOutside s (finish a s) := by
  cases a with
  | error e => exact (failed_raise e s).2.2
  | ok r => exact r.sameOutside_writeTo s

/-- Settles O36: the free answers, supplied as the one ready pair, leave the same state when they are taken. -/
theorem randomRunsWithoutSuppliedDraws : Obligations.RandomRunsWithoutSuppliedDraws := by
  intro s hnone
  have hrun : exec .random s = .next (randomResult (nextDraw s) (takeDraw s)) := rfl
  obtain ⟨-, -, hdraws, hcount⟩ := sameOutside_finish (answerToDraw (nextDraw s)) (takeDraw s)
  rw [finish_answerToDraw] at hdraws hcount
  refine ⟨nextDraw s, _, hrun, ?_, hdraws.trans (by rw [takeDraw_draws, hnone, List.tail_nil]), hcount⟩
  rw [exec_random_of_draws (s := { s with draws := [nextDraw s] }) rfl, takeDraw, hnone, List.tail_nil]

/-! ### PARSE -/

theorem map_fold_getElem? (str : List Byte) {i : Nat} (hi : i < str.length) :
    (str.map fold)[i]? = encTable[(rankOfValid (str.getD i 0)).toNat]? := by
  rw [encTable_getElem?_toNat, List.getElem?_map, List.getElem?_eq_getElem hi, List.getD_eq_getElem _ _ hi]
  rfl

theorem rankOf_of_isSome {c : Byte} (h : (rankOf c).isSome) : rankOf c = some (rankOfValid c) := by
  obtain ⟨r, hr⟩ := Option.isSome_iff_exists.mp h
  rw [hr, rankOfValid_of_some hr]

/-- Settles O37: every character of a valid string has a rank, and its fold is that rank's table entry. -/
theorem parseFoldsTheString : Obligations.ParseFoldsTheString := by
  refine ⟨by decide, fun s => ?_⟩
  obtain ⟨t, hexec, hfail, hok⟩ := exec_onString (i := .parse) (by decide) (s := s) rfl
  refine ⟨t, hexec, hfail, fun hvalid => ?_⟩
  obtain rfl := hok hvalid
  have hlen : (s.strChars.map fold).length = 26 := by simp
  have hout := strOutChars_succeed_writeStr s hlen
  refine ⟨succeeded_writeStr s _, strOut6_succeed_writeStr s hlen, fun i => ?_, fun hupper => ?_⟩
  · have hmapped := (validString_of_validate hvalid).2 _ (mem_strChars_iff.mpr ⟨i, rfl⟩)
    have hi : i.val < s.strChars.length := by rw [strChars_length]; exact i.isLt
    exact ⟨_, rankOf_of_isSome hmapped, (map_fold_getElem? _ hi).symm.trans (by rw [CommandResult.writeTo, hout])⟩
  · exact hout.trans hupper.map_fold

/-! ### GETTS and GETENT -/

theorem tsOut_succeed_writeTs (s : State) (t : BitVec 48) :
    ((succeed (s.writeTs t)).get .tsOutHi).toNat * 2 ^ 32 + ((succeed (s.writeTs t)).get .tsOutLo).toNat = t.toNat := by
  rw [get_succeed_of_ne _ (by decide), get_succeed_of_ne _ (by decide), tsOut_writeTs]

/-- Settles O38: TS_OUT takes the timestamp of the decoded string. -/
theorem gettsExtractsTheTimestamp : Obligations.GettsExtractsTheTimestamp := by
  refine ⟨by decide, fun s => ?_⟩
  obtain ⟨t, hexec, hfail, hok⟩ := exec_onString (i := .getts) (by decide) (s := s) rfl
  refine ⟨t, hexec, hfail, fun hvalid => ?_⟩
  obtain rfl := hok hvalid
  refine ⟨succeeded_succeed (changedOnly_writeTs s _) (sameOutside_writeTs s _), ?_⟩
  rw [CommandResult.writeTo, tsOut_succeed_writeTs, timestampOf_eq_div (strChars_length s)]

/-- Settles O39: ENT_OUT takes the entropy of the decoded string. -/
theorem getentExtractsTheEntropy : Obligations.GetentExtractsTheEntropy := by
  refine ⟨by decide, fun s => ?_⟩
  obtain ⟨t, hexec, hfail, hok⟩ := exec_onString (i := .getent) (by decide) (s := s) rfl
  refine ⟨t, hexec, hfail, fun hvalid => ?_⟩
  obtain rfl := hok hvalid
  refine ⟨succeeded_succeed (changedOnly_writeEnt s _) (sameOutside_writeEnt s _), ?_⟩
  rw [CommandResult.writeTo, entOut_succeed_writeEnt _ (entropyOf_length _), be_entropyOf_eq_mod (strChars_length s)]

end Sys2Proof.Machine
end

section
/-! What the facade's commands leave unchanged (43_facade.md R200 to R208), and that a command's outcome is a function
of its operands (R209). -/

namespace Sys2Proof.Machine

/-! ### Frames -/

/-- The frame of any command but ISVALID: its result registers, ERR, and of the agents outside only RANDOM's draws. -/
theorem exec_frame {i : Instr} {s t : State} (hi : i ≠ .isvalid) (h : exec i s = .next t) :
    ChangedOnly (resultRegs i) s t ∧ SameOutside (inputOf i s) t := by
  have hin : ChangedOnly (resultRegs i) (inputOf i s) t ∧ SameOutside (inputOf i s) t := by
    rcases endedIn_of_exec h with ⟨e, rfl⟩ | ⟨u, rfl, houtside, hkeep, -⟩
    · obtain ⟨-, hchanged, houtside⟩ := failed_raise e (inputOf i s)
      exact ⟨hchanged.mono nofun, houtside⟩
    · exact (succeeded_succeed (hkeep hi).1 houtside).2
  simpa only [ChangedOnly, get_inputOf] using hin

/-- Settles O41: the three commands have STR_OUT as their result, and only RANDOM takes a draw first. -/
theorem stringWritingCommandsFrame : Obligations.StringWritingCommandsFrame := by
  rintro i s t (rfl | rfl | rfl) h
  all_goals obtain ⟨hchanged, hhost, hreads, hdraws, hcount⟩ := exec_frame (by decide) h
  · exact ⟨hchanged, hhost, hreads, fun _ => ⟨hdraws, hcount⟩, nofun⟩
  · exact ⟨hchanged, hhost, hreads, fun hne => absurd rfl hne, fun _ => ⟨hdraws, hcount⟩⟩
  · exact ⟨hchanged, hhost, hreads, fun _ => ⟨hdraws, hcount⟩, nofun⟩

/-- Settles O42: the frame of any command, at the result registers of these three. -/
theorem decodingCommandsFrame : Obligations.DecodingCommandsFrame :=
  fun _ _ => ⟨exec_frame (by decide), exec_frame (by decide), exec_frame (by decide)⟩

/-! ### Functions of the operands -/

/-- The registers a result is written to; validity goes to STATUS. -/
def CommandResult.regs : CommandResult → List Reg
  | .string _ => strOutRegs
  | .validity _ => []
  | .timestamp _ => tsOutRegs
  | .entropy _ => entOutRegs
  | .parts _ _ => tsOutRegs ++ entOutRegs
  | .symbol _ => [.symOut]

/-- A result fills its registers, whatever they held. -/
theorem CommandResult.get_writeTo_congr (r : CommandResult) (s t : State) {q : Reg} (hq : q ∈ r.regs) :
    (r.writeTo s).get q = (r.writeTo t).get q := by
  cases r with
  | string b =>
    obtain ⟨k, rfl⟩ : ∃ k, q = .strOut k := by
      simp only [regs, strOutRegs, List.mem_cons, List.not_mem_nil, or_false] at hq
      rcases hq with rfl | rfl | rfl | rfl | rfl | rfl | rfl <;> exact ⟨_, rfl⟩
    simp only [writeTo, State.get_writeStr]
  | validity v => cases hq
  | timestamp ts =>
    simp only [regs, tsOutRegs, List.mem_cons, List.not_mem_nil, or_false] at hq
    rcases hq with rfl | rfl <;> simp [writeTo, State.get_writeTs]
  | entropy e =>
    simp only [regs, entOutRegs, List.mem_cons, List.not_mem_nil, or_false] at hq
    rcases hq with rfl | rfl | rfl <;> simp only [writeTo, State.get_writeEnt]
  | parts ts e =>
    simp only [regs, tsOutRegs, entOutRegs, List.mem_append, List.mem_cons, List.not_mem_nil, or_false] at hq
    rcases hq with (rfl | rfl) | (rfl | rfl | rfl) <;> simp [writeTo, State.get_writeEnt, State.get_writeTs]
  | symbol w =>
    rw [regs, List.mem_singleton] at hq
    rw [writeTo, writeTo, State.get_set, State.get_set, if_pos hq, if_pos hq]

theorem onString_eq_ok {s : State} {r r' : CommandResult} (h : onString s r = .ok r') : r' = r := by
  cases hv : validate s with
  | some e => cases (onString_of_error hv r).symm.trans h
  | none => cases (onString_of_valid hv r).symm.trans h; rfl

theorem answerToDraw_eq_ok {d : Draw} {r : CommandResult} (h : answerToDraw d = .ok r) :
    ∃ b, d.entropy = .bytes b ∧ d.clock.toNat < 2 ^ 48 ∧ b.length = 10 ∧
      r = .string (encodeStr (d.clock.extractLsb' 0 48) b) := by
  unfold answerToDraw at h
  split at h
  next => cases h
  next b hb =>
    split_ifs at h with hclock hlen
    cases h
    rw [not_inRange_iff, Nat.not_le] at hclock
    exact ⟨b, hb, hclock, not_not.mp hlen, rfl⟩

theorem answerOf_generate_eq_ok {s : State} {r : CommandResult} (h : answerOf .generate s = .ok r) :
    r = .string (encodeStr (s.ts64.extractLsb' 0 48) s.entBytes) := by
  rw [answerOf_generate] at h
  split_ifs at h
  cases h
  rfl

/-- A command's result goes to its result registers (30_encoding.md R102). -/
theorem regs_of_answerOf {i : Instr} {s : State} {r : CommandResult} (h : answerOf i s = .ok r) :
    r.regs = resultRegs i := by
  cases i with
  | generate => rw [answerOf_generate_eq_ok h]; rfl
  | random =>
    obtain ⟨b, -, -, -, rfl⟩ := answerToDraw_eq_ok h
    rfl
  | parse | getts | getent | decode => rw [onString_eq_ok h]; rfl
  | isvalid => cases h; rfl
  | encsym rank =>
    rw [answerOf] at h
    split_ifs at h
    cases h
    rfl
  | decsym char =>
    rw [answerOf] at h
    split at h <;> cases h
    rfl

theorem status_not_mem_resultRegs (i : Instr) : .status ∉ resultRegs i := by
  cases i <;> simp [resultRegs, strOutRegs, tsOutRegs, entOutRegs]

theorem err_finish_congr (a : Except ErrorKind CommandResult) (s t : State) : (finish a s).err = (finish a t).err := by
  cases a with
  | error e => exact (err_raise e s).trans (err_raise e t).symm
  | ok r => exact (err_succeed _).trans (err_succeed _).symm

/-- Settles O49: the operands determine the answer, and an answer is an error, which writes no result, or a result,
which fills its registers. -/
theorem commandsAreFunctionsOfTheirOperands : Obligations.CommandsAreFunctionsOfTheirOperands := by
  intro i s1 s2 hoperands hdraws
  have hanswer : answerOf i s1 = answerOf i s2 := answerOf_congr hoperands fun hrandom => by
    obtain ⟨d, ds1, ds2, h1, h2⟩ := hdraws hrandom
    rw [nextDraw_cons h1, nextDraw_cons h2]
  have hne : ∀ r ∈ resultRegs i, r ≠ .status := fun r hr hs => status_not_mem_resultRegs i (hs ▸ hr)
  refine ⟨_, _, exec_eq_finish i s1, exec_eq_finish i s2, ?_, ?_, ?_⟩
  · rw [hanswer, err_finish_congr]
  · rw [← hanswer]
    cases ha : answerOf i s1 with
    | error e =>
      refine .inr fun r hr => ?_
      simp only [finish, get_raise_of_ne e _ (hne r hr), get_inputOf, and_self]
    | ok res =>
      refine .inl fun r hr => ?_
      simp only [finish, get_succeed_of_ne _ (hne r hr)]
      exact res.get_writeTo_congr _ _ (regs_of_answerOf ha ▸ hr)
  · rintro rfl
    rw [hanswer]
    simp only [answerOf, finish, CommandResult.writeTo, valid_succeed, State.valid_setValid]

end Sys2Proof.Machine
end

section
/-! The facade's laws: the strings GENERATE and RANDOM write are canonical (43_facade.md R201) and sorted by the clock
(R204), PARSE's output is its own fold (R206), and extracting and regenerating gives the fold (R210). -/

namespace Sys2Proof.Machine

/-! ### Encoded strings -/

theorem uppercase_map_sym (g : List Rank) : Uppercase (g.map sym) := by
  intro c hc
  obtain ⟨r, -, rfl⟩ := List.mem_map.mp hc
  exact sym_mem r

theorem encodeStr_uppercase (t : BitVec 48) (e : List Byte) : Uppercase (encodeStr t e) :=
  encodeStr_eq_map_sym t e ▸ uppercase_map_sym _

theorem validString_of_uppercase {str : List Byte} (hlen : str.length = 26) (h : Uppercase str) : ValidString str :=
  ⟨hlen, fun c hc => by rw [rankOf_of_mem (h c hc)]; rfl⟩

/-- Encoded strings are ordered by their timestamps first (41_packer.md R160). -/
theorem encodeStr_lt_of_timestamp_lt {t₁ t₂ : BitVec 48} {e₁ e₂ : List Byte} (h₁ : e₁.length = 10) (h₂ : e₂.length = 10)
    (h : t₁.toNat < t₂.toNat) : encodeStr t₁ e₁ < encodeStr t₂ e₂ := by
  have hvalid (t : BitVec 48) (e : List Byte) : ValidString (encodeStr t e) :=
    validString_of_uppercase (encodeStr_length t e) (encodeStr_uppercase t e)
  have hbytes := be_lt_of_length_10 h₁
  rw [lt_iff_paddedOf_lt (hvalid _ _) (hvalid _ _) (encodeStr_uppercase _ _) (encodeStr_uppercase _ _),
    paddedOf_encodeStr, paddedOf_encodeStr, padValue_toNat, padValue_toNat, packValue_toNat _ h₁, packValue_toNat _ h₂]
  omega

/-- The symbols in the character classes of R201. -/
theorem encTable_charset : ∀ c ∈ encTable, (0x30 ≤ c.toNat ∧ c.toNat ≤ 0x39) ∨ (0x41 ≤ c.toNat ∧ c.toNat ≤ 0x48) ∨
    c = 0x4A ∨ c = 0x4B ∨ c = 0x4D ∨ c = 0x4E ∨ (0x50 ≤ c.toNat ∧ c.toNat ≤ 0x54) ∨
    (0x56 ≤ c.toNat ∧ c.toNat ≤ 0x5A) := by
  decide

theorem sym_of_lt_8 {r : Rank} (h : r.toNat < 8) : 0x30 ≤ (sym r).toNat ∧ (sym r).toNat ≤ 0x37 := by
  have hall : ∀ r : Fin 32, r.val < 8 → 0x30 ≤ (sym (BitVec.ofFin r)).toNat ∧ (sym (BitVec.ofFin r)).toNat ≤ 0x37 := by
    decide
  exact hall r.toFin h

/-- The first symbol of an uppercase string whose first rank is 0..7 is one of `0`..`7`. -/
theorem head_of_firstRankBelow8 {str : List Byte} (hne : str ≠ []) (hupper : Uppercase str)
    (hfirst : FirstRankBelow8 str) : ∃ c, str.head? = some c ∧ 0x30 ≤ c.toNat ∧ c.toNat ≤ 0x37 := by
  cases str with
  | nil => exact absurd rfl hne
  | cons c rest =>
    obtain ⟨r, rfl⟩ := (mem_encTable_iff c).mp (hupper c List.mem_cons_self)
    rw [FirstRankBelow8, List.headD_cons, rankOfValid_sym] at hfirst
    exact ⟨_, rfl, sym_of_lt_8 hfirst⟩

/-! ### What GENERATE and RANDOM write -/

/-- A command that ends with ERR = 0 has written a result (00_scope.md R11). -/
theorem exists_result_of_err_zero {i : Instr} {s t : State} (h : exec i s = .next t) (herr : t.err = 0) :
    ∃ r, answerOf i s = .ok r ∧ t = succeed (r.writeTo (inputOf i s)) := by
  cases ha : answerOf i s with
  | error e =>
    cases (exec_of_answer_error ha).symm.trans h
    exact absurd ((err_raise e _).symm.trans herr) e.code_ne_zero
  | ok r =>
    cases (exec_of_answer_ok ha).symm.trans h
    exact ⟨r, rfl, rfl⟩

/-- RANDOM's success is that of `Encode` on its draws (R204). -/
theorem random_of_err_zero {s t : State} (h : exec .random s = .next t) (herr : t.err = 0) :
    ∃ b, (nextDraw s).entropy = .bytes b ∧ (nextDraw s).clock.toNat < 2 ^ 48 ∧ b.length = 10 ∧
      t.strOutChars = encodeStr ((nextDraw s).clock.extractLsb' 0 48) b := by
  obtain ⟨r, hanswer, rfl⟩ := exists_result_of_err_zero h herr
  obtain ⟨b, hbytes, hclock, hlen, rfl⟩ := answerToDraw_eq_ok hanswer
  exact ⟨b, hbytes, hclock, hlen, strOutChars_succeed_writeStr _ (encodeStr_length _ _)⟩

theorem exists_encodeStr_of_err_zero {i : Instr} {s t : State} (hi : i = .generate ∨ i = .random)
    (h : exec i s = .next t) (herr : t.err = 0) : ∃ ts e, t.strOutChars = encodeStr ts e := by
  rcases hi with rfl | rfl
  · obtain ⟨r, hanswer, rfl⟩ := exists_result_of_err_zero h herr
    obtain rfl := answerOf_generate_eq_ok hanswer
    exact ⟨_, _, strOutChars_succeed_writeStr _ (encodeStr_length _ _)⟩
  · obtain ⟨b, -, -, -, hstr⟩ := random_of_err_zero h herr
    exact ⟨_, b, hstr⟩

/-- Settles O56: what was written is an encoded string, so its symbols are in the table and its first rank is 0..7. -/
theorem generatedStringsAreCanonical : Obligations.GeneratedStringsAreCanonical := by
  intro i s t hi h herr
  obtain ⟨ts, e, hstr⟩ := exists_encodeStr_of_err_zero hi h herr
  have hne : encodeStr ts e ≠ [] := List.ne_nil_of_length_eq_add_one (encodeStr_length ts e)
  rw [hstr]
  exact ⟨encodeStr_length ts e, fun c hc => encTable_charset c (encodeStr_uppercase ts e c hc),
    head_of_firstRankBelow8 hne (encodeStr_uppercase ts e) (firstRankBelow8_encodeStr ts e)⟩

/-- Settles O57: both strings are encoded, and the clocks are their timestamps. -/
theorem randomStringsSortByClock : Obligations.RandomStringsSortByClock := by
  intro s1 s2 t1 t2 d1 d2 ds1 ds2 hd1 hd2 h1 h2 herr1 herr2 hlt
  obtain ⟨b1, -, hclock1, hlen1, hstr1⟩ := random_of_err_zero h1 herr1
  obtain ⟨b2, -, hclock2, hlen2, hstr2⟩ := random_of_err_zero h2 herr2
  rw [nextDraw_cons hd1] at hclock1 hstr1
  rw [nextDraw_cons hd2] at hclock2 hstr2
  rw [hstr1, hstr2]
  refine encodeStr_lt_of_timestamp_lt hlen1 hlen2 ?_
  rwa [toNat_timestamp_of_lt hclock1, toNat_timestamp_of_lt hclock2]

/-! ### PARSE's output -/

theorem strOutChars_of_parse {s t : State} (h : exec .parse s = .next t) (hvalid : validate s = none) :
    t.strOutChars = s.strChars.map fold := by
  cases (exec_parse_of_valid hvalid).symm.trans h
  exact strOutChars_succeed_writeStr s (by simp)

theorem uppercase_map_fold (str : List Byte) : Uppercase (str.map fold) :=
  map_sym_map_rank str ▸ uppercase_map_sym _

/-- Folding keeps every rank, so it keeps the padded value (41_packer.md R155). -/
theorem paddedOf_map_fold (str : List Byte) : paddedOf (str.map fold) = paddedOf str := by
  rw [paddedOf, List.map_map, paddedOf]
  congr 2
  exact funext rankOfValid_fold

/-- A string is folded to `Encode` of its fields exactly where decoding dropped no bit of it (41_packer.md R159,
R161). -/
theorem map_fold_eq_encodeStr_iff {str : List Byte} (hlen : str.length = 26) :
    str.map fold = encodeStr (timestampOf str) (entropyOf str) ↔ FirstRankBelow8 str := by
  refine ⟨fun heq => ?_, fun hfirst => (encodeStr_of_string hlen hfirst).symm⟩
  rw [firstRankBelow8_iff hlen, ← paddedOf_map_fold, heq, ← firstRankBelow8_iff (encodeStr_length _ _)]
  exact firstRankBelow8_encodeStr _ _

/-- Settles O58: PARSE's output is the fold of its input, and the fold of an uppercase string is that string. -/
theorem parseOutputIsValidAndStable : Obligations.ParseOutputIsValidAndStable := by
  intro s t h hvalid
  have hupper := uppercase_map_fold s.strChars
  rw [strOutChars_of_parse h hvalid]
  refine ⟨validString_of_uppercase (by simp) hupper, hupper, paddedOf_map_fold _, fun u v hu hvalidu hv => ?_,
    map_fold_eq_encodeStr_iff (strChars_length s)⟩
  rw [strOutChars_of_parse hv hvalidu, hu, hupper.map_fold]

/-! ### Extract and regenerate -/

/-- ENT_IN holding the words that ENT_OUT takes from 10 bytes presents those bytes (10_state.md R37, R41). -/
theorem entBytes_of_packed {s : State} {e : List Byte} (he : e.length = 10)
    (h : ∀ k : Fin 3, s.get (.entIn k) = packedWord e k.val) : s.entBytes = e := by
  refine List.ext_getElem ((entBytes_length s).trans he.symm) fun j _ hj => ?_
  simp only [State.entBytes, List.getElem_ofFn, h]
  rw [byteOf_packedWord, List.getD_eq_getElem _ _ hj]

/-- TS_IN holding the words that TS_OUT takes from a timestamp presents that timestamp (10_state.md R35, R40). -/
theorem ts64_of_tsOut {s : State} {t : BitVec 48} (hlo : s.get .tsInLo = t.extractLsb' 0 32)
    (hhi : s.get .tsInHi = (t.extractLsb' 32 16).setWidth 32) : s.ts64.toNat = t.toNat := by
  have ht := t.isLt
  rw [ts64_toNat, hlo, hhi, BitVec.toNat_setWidth, toNat_extract, toNat_extract]
  omega

/-- GETTS and then GETENT leave both fields of the string in their registers (R207, R208). -/
theorem holds_parts_of_getts_getent {s t u : State} (hvalid : validate s = none) (ht : exec .getts s = .next t)
    (hu : exec .getent t = .next u) : HoldsTs (timestampOf s.strChars) u ∧ HoldsEnt (entropyOf s.strChars) u := by
  have hkeep : validate t = validate s ∧ t.strChars = s.strChars :=
    validate_of_regs fun r hr => exec_get_of_writable ht (writable_of_mem_operandRegs (i := .getts) hr)
  obtain ⟨hvalidt, hchars⟩ := hkeep
  cases (exec_getts_of_valid hvalid).symm.trans ht
  cases (exec_getent_of_valid (hvalidt.trans hvalid)).symm.trans hu
  obtain ⟨hlo, hhi⟩ := holdsTs_succeed_writeTs s (timestampOf s.strChars)
  rw [hchars]
  refine ⟨⟨?_, ?_⟩, holdsEnt_succeed_writeEnt _ _⟩ <;> rw [get_succeed_of_ne _ (by decide), State.get_writeEnt]
  · exact hlo
  · exact hhi

/-- Settles O59: GENERATE's operands are the decoded fields, and `Encode` of them is the fold. -/
theorem regenerateGivesTheFold : Obligations.RegenerateGivesTheFold := by
  intro s t u v hvalid hfirst ht hu hlo hhi hent hctrl
  obtain ⟨⟨htsLo, htsHi⟩, hbytes⟩ := holds_parts_of_getts_getent hvalid ht hu
  have hts := ts64_of_tsOut (hlo.trans htsLo) (hhi.trans htsHi)
  have hlt : v.ts64.toNat < 2 ^ 48 := hts ▸ (timestampOf s.strChars).isLt
  have hfield : v.ts64.extractLsb' 0 48 = timestampOf s.strChars :=
    BitVec.eq_of_toNat_eq ((toNat_timestamp_of_lt hlt).trans hts)
  have hentropy := entBytes_of_packed (entropyOf_length _) fun k => (hent k).trans (hbytes k)
  have hanswer := answerOf_generate_of_operands hlt (by rw [hctrl]; decide) (by rw [hctrl]; decide)
  rw [hfield, hentropy, encodeStr_of_string (strChars_length s) hfirst] at hanswer
  exact ⟨_, exec_of_answer_ok hanswer, err_succeed _, strOutChars_succeed_writeStr _ (by simp)⟩

end Sys2Proof.Machine
end

section
/-! What errors promise (60_exceptions.md R250 to R253): no command changes an operand register or CMD, a strict command
writes its whole result or only its code, and each command raises only the errors its row lists. -/

namespace Sys2Proof.Machine

/-! ### No operand is written -/

/-- What any command leaves of the agents outside the block, ISVALID included. -/
theorem exec_sameOutside {i : Instr} {s t : State} (h : exec i s = .next t) : SameOutside (inputOf i s) t := by
  cases (exec_eq_finish i s).symm.trans h
  exact sameOutside_finish _ _

/-- Settles O46: the host-writable registers are no result registers, and only RANDOM's input has taken a draw. -/
theorem noCommandWritesAnOperand : Obligations.NoCommandWritesAnOperand := by
  refine fun i s t h => ⟨fun r hr => exec_get_of_writable h hr, fun hi => ?_⟩
  obtain ⟨-, -, hdraws, -⟩ := exec_sameOutside h
  rwa [inputOf_of_ne s hi] at hdraws

/-! ### All or nothing -/

theorem exists_symbol_of_answerOf_encsym {rank : Nat} {s : State} {r : CommandResult}
    (h : answerOf (.encsym rank) s = .ok r) : ∃ c, encTable[rank]? = some c ∧ r = .symbol (c.setWidth 32) := by
  rw [answerOf] at h
  split_ifs at h with hgt
  cases h
  obtain ⟨k, rfl⟩ := exists_rank_of_le (Nat.not_lt.mp hgt)
  rw [BitVec.ofNat_toNat, BitVec.setWidth_eq]
  exact ⟨sym k, encTable_getElem?_toNat k, rfl⟩

theorem exists_rank_of_answerOf_decsym {char : Byte} {s : State} {r : CommandResult}
    (h : answerOf (.decsym char) s = .ok r) : ∃ k, rankOf char = some k ∧ r = .symbol (k.setWidth 32) := by
  rw [answerOf] at h
  split at h
  next => cases h
  next k hk =>
    cases h
    exact ⟨k, hk, rfl⟩

/-- A command that has a result leaves the whole of it in its result registers (60_exceptions.md R252). -/
theorem wholeResult_of_answerOf {i : Instr} {s : State} {r : CommandResult} (h : answerOf i s = .ok r) :
    WholeResult i s (succeed (r.writeTo (inputOf i s))) := by
  cases i with
  | generate =>
    obtain rfl := answerOf_generate_eq_ok h
    exact holdsStr_succeed_writeStr _ _
  | random =>
    obtain ⟨b, hbytes, -, -, rfl⟩ := answerToDraw_eq_ok h
    exact ⟨b, hbytes, holdsStr_succeed_writeStr _ _⟩
  | parse =>
    obtain rfl := onString_eq_ok h
    exact holdsStr_succeed_writeStr _ _
  | isvalid =>
    cases h
    exact (valid_succeed _).trans (State.valid_setValid _ _)
  | getts =>
    obtain rfl := onString_eq_ok h
    exact holdsTs_succeed_writeTs _ _
  | getent =>
    obtain rfl := onString_eq_ok h
    exact holdsEnt_succeed_writeEnt _ _
  | decode =>
    obtain rfl := onString_eq_ok h
    exact ⟨holdsTs_succeed_writeTs_writeEnt _ _ _, holdsEnt_succeed_writeEnt _ _⟩
  | encsym rank =>
    obtain ⟨c, hc, rfl⟩ := exists_symbol_of_answerOf_encsym h
    exact ⟨c, hc, get_symOut_lookup _ _⟩
  | decsym char =>
    obtain ⟨k, hk, rfl⟩ := exists_rank_of_answerOf_decsym h
    exact ⟨k, hk, get_symOut_lookup _ _⟩

/-- Taking its draws changes no register, so RANDOM's changes can be counted from before or after it. -/
theorem changedOnly_inputOf_iff (i : Instr) (written : List Reg) (s t : State) :
    ChangedOnly written (inputOf i s) t ↔ ChangedOnly written s t := by
  simp only [ChangedOnly, get_inputOf]

/-- Settles O47: a command's answer is an error, whose code alone is written, or a result, which is written whole. -/
theorem strictCommandsWriteAllOrNothing : Obligations.StrictCommandsWriteAllOrNothing := by
  refine ⟨fun i s hi => ?_, fun s => ?_⟩
  · cases hanswer : answerOf i s with
    | error e =>
      obtain ⟨herr, hchanged, -⟩ := failed_raise e (inputOf i s)
      exact ⟨_, exec_of_answer_error hanswer,
        .inr ⟨herr ▸ e.code_ne_zero, ⟨e, herr⟩, (changedOnly_inputOf_iff i [] s _).mp hchanged⟩⟩
    | ok r =>
      have hexec := exec_of_answer_ok hanswer
      exact ⟨_, hexec, .inl ⟨err_succeed _, wholeResult_of_answerOf hanswer, (exec_frame hi hexec).1⟩⟩
  · have hanswer : answerOf .isvalid s = .ok (.validity (validate s).isNone) := rfl
    exact ⟨_, exec_of_answer_ok hanswer, err_succeed _, wholeResult_of_answerOf hanswer⟩

/-! ### The errors of each command -/

/-- The errors that `Validate` returns (42_validator.md R180). -/
def validateErrors : List ErrorKind := [.invalidLength, .missingInput, .illegalSymbol]

/-- The errors a command can raise (60_exceptions.md R250, "raised by"). -/
def errorsOf : Instr → List ErrorKind
  | .generate => [.outOfRange, .invalidLength, .missingInput]
  | .random => [.outOfRange, .invalidLength, .sourceFailure]
  | .parse | .getts | .getent | .decode => validateErrors
  | .isvalid => []
  | .encsym _ => [.outOfRange]
  | .decsym _ => [.illegalSymbol]

theorem mem_validateErrors {s : State} {e : ErrorKind} (h : validate s = some e) : e ∈ validateErrors := by
  unfold validate at h
  split_ifs at h <;> cases h <;> decide

theorem onString_eq_error {s : State} {r : CommandResult} {e : ErrorKind} (h : onString s r = .error e) :
    validate s = some e := by
  cases hv : validate s with
  | some e' => cases (onString_of_error hv r).symm.trans h; rfl
  | none => cases (onString_of_valid hv r).symm.trans h

theorem answerToDraw_error_mem {d : Draw} {e : ErrorKind} (h : answerToDraw d = .error e) : e ∈ errorsOf .random := by
  unfold answerToDraw at h
  split at h
  · cases h; decide
  · split_ifs at h <;> cases h <;> decide

/-- A command's error is one that R250 lists for it. -/
theorem answerOf_error_mem {i : Instr} {s : State} {e : ErrorKind} (h : answerOf i s = .error e) : e ∈ errorsOf i := by
  cases i with
  | generate =>
    rw [answerOf_generate] at h
    split_ifs at h <;> cases h <;> decide
  | random => exact answerToDraw_error_mem h
  | parse | getts | getent | decode => exact mem_validateErrors (onString_eq_error h)
  | isvalid => cases h
  | encsym rank =>
    rw [answerOf] at h
    split_ifs at h
    cases h
    exact List.mem_singleton.mpr rfl
  | decsym char =>
    rw [answerOf] at h
    split at h <;> cases h
    exact List.mem_singleton.mpr rfl

/-- STATUS.ERR after a command is 0 or the code of one of its errors. -/
theorem err_mem_of_exec {i : Instr} {s t : State} (h : exec i s = .next t) :
    t.err.toNat ∈ 0 :: (errorsOf i).map fun e => e.code.toNat := by
  cases hanswer : answerOf i s with
  | error e =>
    cases (exec_of_answer_error hanswer).symm.trans h
    rw [err_raise]
    exact List.mem_cons_of_mem _ (List.mem_map_of_mem (answerOf_error_mem hanswer))
  | ok r =>
    cases (exec_of_answer_ok hanswer).symm.trans h
    rw [err_succeed]
    exact List.mem_cons_self

/-- Settles O48: the listed codes are 0 and those of each command's errors, and a word with no command raises
ILLEGAL_COMMAND. -/
theorem eachCommandRaisesOnlyItsErrors : Obligations.EachCommandRaisesOnlyItsErrors := by
  refine ⟨fun i s t h => ?_, fun w s t hnone h => ?_⟩
  · have hmem := err_mem_of_exec h
    cases i <;> exact hmem
  · rcases execWord_cases h with ⟨i, hi, -⟩ | rfl
    · exact absurd hi (hnone i)
    · exact err_raise .illegalCommand s

end Sys2Proof.Machine
end

section
/-! The reset input and the commands right after reset (70_reset_and_hazards.md R280, R282). -/

namespace Sys2Proof.Machine

/-! ### The reset input -/

theorem blockReset_get (s : State) (r : Reg) : (blockReset s).get r = 0 := RegFile.get_reset r

theorem step_assertReset {s : State} {rest : List HostAction} (h : s.host = .assertReset :: rest) :
    step s = .next (blockReset { s with host := rest }) := by
  rw [step_of_host h, perform]

/-- Settles O13: the step is the block's reset, which puts in the reset register file and leaves the rest of the state. -/
theorem resetInputClearsEveryRegister : Obligations.ResetInputClearsEveryRegister :=
  fun _ _ h => ⟨_, step_assertReset h, blockReset_get _, rfl, rfl, rfl, rfl⟩

/-! ### Commands right after reset -/

/-- After reset no string operand is present (10_state.md R38, R49). -/
theorem validate_reset : validate State.reset = some .missingInput := by
  obtain ⟨-, -, habsent, -, -⟩ := everyRegisterIsZeroAfterReset
  rw [validate, if_pos habsent]

/-- After reset the timestamp 0 is in range and no entropy operand is present (43_facade.md R200). -/
theorem answerOf_generate_reset : answerOf .generate State.reset = .error .missingInput := by
  have hts : ¬ 2 ^ 48 ≤ State.reset.ts64.toNat := by rw [ts64_toNat, State.get_reset, State.get_reset]; decide
  have habsent : ¬ (State.reset.get .entCtrl).toNat / 2 ^ 31 = 1 := by rw [State.get_reset]; decide
  rw [answerOf_generate, if_neg hts, if_pos habsent]

/-- The five commands that need an operand register have MISSING_INPUT for an answer after reset. -/
theorem answerOf_reset {i : Instr} (hi : i = .generate ∨ i = .parse ∨ i = .getts ∨ i = .getent ∨ i = .decode) :
    answerOf i State.reset = .error .missingInput := by
  rcases hi with rfl | hstring
  · exact answerOf_generate_reset
  · obtain ⟨r, hanswer⟩ := answerOf_eq_onString hstring State.reset
    rw [hanswer, onString_of_error validate_reset]

/-- Settles O60: the operand registers are all absent, and the lookups read none. -/
theorem commandsRightAfterReset : Obligations.CommandsRightAfterReset := by
  refine ⟨fun i hi => ?_, ⟨_, exec_isvalid _, err_succeed _, ?_⟩, fun rank hle => ?_, fun char hmapped => ?_⟩
  · have hne : i ≠ .random := by rintro rfl; simp at hi
    refine ⟨_, exec_of_answer_error (answerOf_reset hi), ?_⟩
    rw [inputOf_of_ne _ hne]
    exact failed_raise _ _
  · rw [valid_succeed, State.valid_setValid, validate_reset, Option.isNone_some]
  · obtain ⟨r, rfl⟩ := exists_rank_of_le hle
    exact ⟨_, exec_encsym_toNat r _, err_succeed _⟩
  · exact ⟨_, exec_decsym_of_some (rankOf_of_isSome hmapped) _, err_succeed _⟩

end Sys2Proof.Machine
end
